-- ==== Sys2Proof/Word.lean ====
section
/-! DEFINITION. The word types of the vu128 codec block and the plainest arithmetic of 00_scope.md section 4. -/

namespace Sys2Proof

/-- One 8-bit byte of the caller buffer (R31, R36). -/
abbrev Byte := BitVec 8

/-- The 128-bit operand and result field (R20, R21). -/
abbrev Word := BitVec 128

/-- `low(u, m)` of R14. -/
def low (u m : Nat) : Nat := u % 2 ^ m

/-- `bitlen(u)` of R14: the number of bits needed to write `u`, with `bitlen 0 = 0`. -/
def bitlen (u : Nat) : Nat := if u = 0 then 0 else Nat.log2 u + 1

end Sys2Proof
end

