-- ==== Sys2Proof/Syntax.lean ====
section
/-! DEFINITION. The request format (R20, R64), the 38 operations (R62) with the request fields each form uses, and the literals of
the assembler syntax (R66). -/

namespace Sys2Proof

/-- A request on the request port (R20). `off` and `len` are natural numbers (R32, log 1). -/
structure Request where
  op  : BitVec 8
  a   : Word
  off : Nat
  len : Nat
deriving DecidableEq, Repr

/-- The request forms of R64. -/
inductive Form where
  | memEnc
  | memDec
  | map
deriving DecidableEq, Repr

/-- The 38 operations of R62, one constructor per row of the opcode table. Each carries the request fields its form uses (R64):
MEM-ENC `a off len`, MEM-DEC `off len`, MAP `a`. -/
inductive Instr where
  | encodeU8   (a : Word) (off len : Nat)
  | encodeU16  (a : Word) (off len : Nat)
  | encodeU32  (a : Word) (off len : Nat)
  | encodeU64  (a : Word) (off len : Nat)
  | encodeU128 (a : Word) (off len : Nat)
  | decodeU8   (off len : Nat)
  | decodeU16  (off len : Nat)
  | decodeU32  (off len : Nat)
  | decodeU64  (off len : Nat)
  | decodeU128 (off len : Nat)
  | encodeI8   (a : Word) (off len : Nat)
  | encodeI16  (a : Word) (off len : Nat)
  | encodeI32  (a : Word) (off len : Nat)
  | encodeI64  (a : Word) (off len : Nat)
  | encodeI128 (a : Word) (off len : Nat)
  | decodeI8   (off len : Nat)
  | decodeI16  (off len : Nat)
  | decodeI32  (off len : Nat)
  | decodeI64  (off len : Nat)
  | decodeI128 (off len : Nat)
  | encodeF32  (a : Word) (off len : Nat)
  | encodeF64  (a : Word) (off len : Nat)
  | decodeF32  (off len : Nat)
  | decodeF64  (off len : Nat)
  | zigzagEncodeI8   (a : Word)
  | zigzagEncodeI16  (a : Word)
  | zigzagEncodeI32  (a : Word)
  | zigzagEncodeI64  (a : Word)
  | zigzagEncodeI128 (a : Word)
  | zigzagDecodeI8   (a : Word)
  | zigzagDecodeI16  (a : Word)
  | zigzagDecodeI32  (a : Word)
  | zigzagDecodeI64  (a : Word)
  | zigzagDecodeI128 (a : Word)
  | bitrevEncodeF32  (a : Word)
  | bitrevEncodeF64  (a : Word)
  | bitrevDecodeF32  (a : Word)
  | bitrevDecodeF64  (a : Word)
deriving DecidableEq, Repr

/-- An operand as the assembler syntax writes it (R66): a `0x` hexadecimal bit pattern, or a decimal integer. -/
inductive Literal where
  | hex (n : Nat)
  | dec (z : Int)
deriving DecidableEq, Repr

/-- What an operation's operand is, as far as the syntax of R66 cares. -/
inductive OperandKind where
  | none      -- MEM-DEC: the form has no operand
  | unsigned
  | signed    -- a negative decimal is allowed (`encode_iW`, `zigzag_encode_iW`)
  | float     -- hexadecimal only (`encode_fW`, `bitrev_encode_fW`)
deriving DecidableEq, Repr

/-- The request form of an operation: the `format` column of the opcode table (R64). -/
def Instr.form : Instr → Form
  | .encodeU8 _ _ _ => .memEnc
  | .encodeU16 _ _ _ => .memEnc
  | .encodeU32 _ _ _ => .memEnc
  | .encodeU64 _ _ _ => .memEnc
  | .encodeU128 _ _ _ => .memEnc
  | .decodeU8 _ _ => .memDec
  | .decodeU16 _ _ => .memDec
  | .decodeU32 _ _ => .memDec
  | .decodeU64 _ _ => .memDec
  | .decodeU128 _ _ => .memDec
  | .encodeI8 _ _ _ => .memEnc
  | .encodeI16 _ _ _ => .memEnc
  | .encodeI32 _ _ _ => .memEnc
  | .encodeI64 _ _ _ => .memEnc
  | .encodeI128 _ _ _ => .memEnc
  | .decodeI8 _ _ => .memDec
  | .decodeI16 _ _ => .memDec
  | .decodeI32 _ _ => .memDec
  | .decodeI64 _ _ => .memDec
  | .decodeI128 _ _ => .memDec
  | .encodeF32 _ _ _ => .memEnc
  | .encodeF64 _ _ _ => .memEnc
  | .decodeF32 _ _ => .memDec
  | .decodeF64 _ _ => .memDec
  | .zigzagEncodeI8 _ => .map
  | .zigzagEncodeI16 _ => .map
  | .zigzagEncodeI32 _ => .map
  | .zigzagEncodeI64 _ => .map
  | .zigzagEncodeI128 _ => .map
  | .zigzagDecodeI8 _ => .map
  | .zigzagDecodeI16 _ => .map
  | .zigzagDecodeI32 _ => .map
  | .zigzagDecodeI64 _ => .map
  | .zigzagDecodeI128 _ => .map
  | .bitrevEncodeF32 _ => .map
  | .bitrevEncodeF64 _ => .map
  | .bitrevDecodeF32 _ => .map
  | .bitrevDecodeF64 _ => .map

/-- The bit width an operation is selected for (R7, R8, R62). -/
def Instr.width : Instr → Nat
  | .encodeU8 _ _ _ => 8
  | .encodeU16 _ _ _ => 16
  | .encodeU32 _ _ _ => 32
  | .encodeU64 _ _ _ => 64
  | .encodeU128 _ _ _ => 128
  | .decodeU8 _ _ => 8
  | .decodeU16 _ _ => 16
  | .decodeU32 _ _ => 32
  | .decodeU64 _ _ => 64
  | .decodeU128 _ _ => 128
  | .encodeI8 _ _ _ => 8
  | .encodeI16 _ _ _ => 16
  | .encodeI32 _ _ _ => 32
  | .encodeI64 _ _ _ => 64
  | .encodeI128 _ _ _ => 128
  | .decodeI8 _ _ => 8
  | .decodeI16 _ _ => 16
  | .decodeI32 _ _ => 32
  | .decodeI64 _ _ => 64
  | .decodeI128 _ _ => 128
  | .encodeF32 _ _ _ => 32
  | .encodeF64 _ _ _ => 64
  | .decodeF32 _ _ => 32
  | .decodeF64 _ _ => 64
  | .zigzagEncodeI8 _ => 8
  | .zigzagEncodeI16 _ => 16
  | .zigzagEncodeI32 _ => 32
  | .zigzagEncodeI64 _ => 64
  | .zigzagEncodeI128 _ => 128
  | .zigzagDecodeI8 _ => 8
  | .zigzagDecodeI16 _ => 16
  | .zigzagDecodeI32 _ => 32
  | .zigzagDecodeI64 _ => 64
  | .zigzagDecodeI128 _ => 128
  | .bitrevEncodeF32 _ => 32
  | .bitrevEncodeF64 _ => 64
  | .bitrevDecodeF32 _ => 32
  | .bitrevDecodeF64 _ => 64

/-- The kind of operand an operation takes (R66). -/
def Instr.operandKind : Instr → OperandKind
  | .encodeU8 _ _ _ => .unsigned
  | .encodeU16 _ _ _ => .unsigned
  | .encodeU32 _ _ _ => .unsigned
  | .encodeU64 _ _ _ => .unsigned
  | .encodeU128 _ _ _ => .unsigned
  | .decodeU8 _ _ => .none
  | .decodeU16 _ _ => .none
  | .decodeU32 _ _ => .none
  | .decodeU64 _ _ => .none
  | .decodeU128 _ _ => .none
  | .encodeI8 _ _ _ => .signed
  | .encodeI16 _ _ _ => .signed
  | .encodeI32 _ _ _ => .signed
  | .encodeI64 _ _ _ => .signed
  | .encodeI128 _ _ _ => .signed
  | .decodeI8 _ _ => .none
  | .decodeI16 _ _ => .none
  | .decodeI32 _ _ => .none
  | .decodeI64 _ _ => .none
  | .decodeI128 _ _ => .none
  | .encodeF32 _ _ _ => .float
  | .encodeF64 _ _ _ => .float
  | .decodeF32 _ _ => .none
  | .decodeF64 _ _ => .none
  | .zigzagEncodeI8 _ => .signed
  | .zigzagEncodeI16 _ => .signed
  | .zigzagEncodeI32 _ => .signed
  | .zigzagEncodeI64 _ => .signed
  | .zigzagEncodeI128 _ => .signed
  | .zigzagDecodeI8 _ => .unsigned
  | .zigzagDecodeI16 _ => .unsigned
  | .zigzagDecodeI32 _ => .unsigned
  | .zigzagDecodeI64 _ => .unsigned
  | .zigzagDecodeI128 _ => .unsigned
  | .bitrevEncodeF32 _ => .float
  | .bitrevEncodeF64 _ => .float
  | .bitrevDecodeF32 _ => .unsigned
  | .bitrevDecodeF64 _ => .unsigned

/-- The operand field `a` an operation carries, and 0 for the MEM-DEC form, which has none (R64). -/
def Instr.operandField : Instr → Word
  | .encodeU8 a _ _ => a
  | .encodeU16 a _ _ => a
  | .encodeU32 a _ _ => a
  | .encodeU64 a _ _ => a
  | .encodeU128 a _ _ => a
  | .decodeU8 _ _ => 0
  | .decodeU16 _ _ => 0
  | .decodeU32 _ _ => 0
  | .decodeU64 _ _ => 0
  | .decodeU128 _ _ => 0
  | .encodeI8 a _ _ => a
  | .encodeI16 a _ _ => a
  | .encodeI32 a _ _ => a
  | .encodeI64 a _ _ => a
  | .encodeI128 a _ _ => a
  | .decodeI8 _ _ => 0
  | .decodeI16 _ _ => 0
  | .decodeI32 _ _ => 0
  | .decodeI64 _ _ => 0
  | .decodeI128 _ _ => 0
  | .encodeF32 a _ _ => a
  | .encodeF64 a _ _ => a
  | .decodeF32 _ _ => 0
  | .decodeF64 _ _ => 0
  | .zigzagEncodeI8 a => a
  | .zigzagEncodeI16 a => a
  | .zigzagEncodeI32 a => a
  | .zigzagEncodeI64 a => a
  | .zigzagEncodeI128 a => a
  | .zigzagDecodeI8 a => a
  | .zigzagDecodeI16 a => a
  | .zigzagDecodeI32 a => a
  | .zigzagDecodeI64 a => a
  | .zigzagDecodeI128 a => a
  | .bitrevEncodeF32 a => a
  | .bitrevEncodeF64 a => a
  | .bitrevDecodeF32 a => a
  | .bitrevDecodeF64 a => a

/-- The mnemonic of an operation (R62). -/
def Instr.mnemonic : Instr → String
  | .encodeU8 _ _ _ => "encode_u8"
  | .encodeU16 _ _ _ => "encode_u16"
  | .encodeU32 _ _ _ => "encode_u32"
  | .encodeU64 _ _ _ => "encode_u64"
  | .encodeU128 _ _ _ => "encode_u128"
  | .decodeU8 _ _ => "decode_u8"
  | .decodeU16 _ _ => "decode_u16"
  | .decodeU32 _ _ => "decode_u32"
  | .decodeU64 _ _ => "decode_u64"
  | .decodeU128 _ _ => "decode_u128"
  | .encodeI8 _ _ _ => "encode_i8"
  | .encodeI16 _ _ _ => "encode_i16"
  | .encodeI32 _ _ _ => "encode_i32"
  | .encodeI64 _ _ _ => "encode_i64"
  | .encodeI128 _ _ _ => "encode_i128"
  | .decodeI8 _ _ => "decode_i8"
  | .decodeI16 _ _ => "decode_i16"
  | .decodeI32 _ _ => "decode_i32"
  | .decodeI64 _ _ => "decode_i64"
  | .decodeI128 _ _ => "decode_i128"
  | .encodeF32 _ _ _ => "encode_f32"
  | .encodeF64 _ _ _ => "encode_f64"
  | .decodeF32 _ _ => "decode_f32"
  | .decodeF64 _ _ => "decode_f64"
  | .zigzagEncodeI8 _ => "zigzag_encode_i8"
  | .zigzagEncodeI16 _ => "zigzag_encode_i16"
  | .zigzagEncodeI32 _ => "zigzag_encode_i32"
  | .zigzagEncodeI64 _ => "zigzag_encode_i64"
  | .zigzagEncodeI128 _ => "zigzag_encode_i128"
  | .zigzagDecodeI8 _ => "zigzag_decode_i8"
  | .zigzagDecodeI16 _ => "zigzag_decode_i16"
  | .zigzagDecodeI32 _ => "zigzag_decode_i32"
  | .zigzagDecodeI64 _ => "zigzag_decode_i64"
  | .zigzagDecodeI128 _ => "zigzag_decode_i128"
  | .bitrevEncodeF32 _ => "bitrev_encode_f32"
  | .bitrevEncodeF64 _ => "bitrev_encode_f64"
  | .bitrevDecodeF32 _ => "bitrev_decode_f32"
  | .bitrevDecodeF64 _ => "bitrev_decode_f64"

end Sys2Proof
end

