-- ==== Sys2Proof/WellFormed.lean ====
section
/-! DEFINITION. The static checks of the syntax (R66): which instructions and which literals a program may write. The hardware itself
takes any operand and ignores the bits above the width (R22); these checks are the assembler's. -/

namespace Sys2Proof

/-- A well-formed instruction: its operand is a bit pattern of at most W bits (R66). A MEM-DEC form has no operand, and any `off` and
`len` are natural numbers (R32), so nothing else can be ill formed. -/
def Instr.wellFormed (i : Instr) : Bool := decide (i.operandField.toNat < 2 ^ i.width)

/-- Why a literal cannot stand for an operand (R66). -/
inductive LiteralError where
  | noOperand         -- the form takes no operand
  | tooWide           -- not a pattern of at most W bits, or outside the W-bit range
  | negativeUnsigned  -- a negative decimal outside the signed operations
  | decimalFloat      -- a float operand written in decimal
deriving DecidableEq, Repr

/-- The W-bit pattern a literal stands for, at an operand kind and width (R66, R15). The range of a decimal is log 9. -/
def Literal.pattern (k : OperandKind) (w : Nat) : Literal → Except LiteralError Word
  | .hex n =>
    match k with
    | .none => .error .noOperand
    | .unsigned | .signed | .float => if n < 2 ^ w then .ok (BitVec.ofNat 128 n) else .error .tooWide
  | .dec z =>
    match k with
    | .none => .error .noOperand
    | .float => .error .decimalFloat
    | .unsigned =>
      if z < 0 then .error .negativeUnsigned
      else if z < 2 ^ w then .ok (BitVec.ofInt 128 z) else .error .tooWide
    | .signed =>
      if -(2 ^ (w - 1)) ≤ z ∧ z < 2 ^ (w - 1) then .ok ((BitVec.ofInt w z).setWidth 128) else .error .tooWide

end Sys2Proof
end

