-- ==== Sys2Proof/Decode.lean ====
section
/-! DEFINITION. The decoder of the operation-select code and its encoder (R61, R62, R63). The decoder takes a request and answers the
operation with the request fields its form uses (R64), or the name of the rule that makes the code illegal (R63). -/

namespace Sys2Proof

/-- Why an operation code is illegal: the four cases of R63. -/
inductive DecodeError where
  | reservedBit     -- `rsv` (bit 5) is 1
  | mapOutsideRaw   -- `map` (bit 4) is 1 outside `cls = 11`
  | widthCode       -- `wc` is 101, 110 or 111
  | floatWidth      -- a float or bit-reversal code with `wc` not 010 or 011
deriving DecidableEq, Repr

/-- `cls`, bits 7:6 of the operation code (R61). -/
def opCls (op : BitVec 8) : BitVec 2 := op.extractLsb' 6 2

/-- `rsv`, bit 5 (R61). -/
def opRsv (op : BitVec 8) : Bool := op.getLsbD 5

/-- `map`, bit 4 (R61). -/
def opMap (op : BitVec 8) : Bool := op.getLsbD 4

/-- `dir`, bit 3 (R61). -/
def opDir (op : BitVec 8) : Bool := op.getLsbD 3

/-- `wc`, bits 2:0 (R61). -/
def opWc (op : BitVec 8) : BitVec 3 := op.extractLsb' 0 3

/-- The first rule of R63 an illegal code breaks. Every illegal code that breaks none of the first three is a float or bit-reversal
code of a wrong width. -/
def illegalReason (op : BitVec 8) : DecodeError :=
  if opRsv op then .reservedBit
  else if opMap op && opCls op != 3 then .mapOutsideRaw
  else if opWc op = 5 ∨ opWc op = 6 ∨ opWc op = 7 then .widthCode
  else .floatWidth

/-- Decoding a request: R62, "match the 8 bits exactly". -/
def decode (r : Request) : Except DecodeError Instr :=
  match r.op with
  | 0x00#8 => .ok (.encodeU8 r.a r.off r.len)
  | 0x01#8 => .ok (.encodeU16 r.a r.off r.len)
  | 0x02#8 => .ok (.encodeU32 r.a r.off r.len)
  | 0x03#8 => .ok (.encodeU64 r.a r.off r.len)
  | 0x04#8 => .ok (.encodeU128 r.a r.off r.len)
  | 0x08#8 => .ok (.decodeU8 r.off r.len)
  | 0x09#8 => .ok (.decodeU16 r.off r.len)
  | 0x0A#8 => .ok (.decodeU32 r.off r.len)
  | 0x0B#8 => .ok (.decodeU64 r.off r.len)
  | 0x0C#8 => .ok (.decodeU128 r.off r.len)
  | 0x40#8 => .ok (.encodeI8 r.a r.off r.len)
  | 0x41#8 => .ok (.encodeI16 r.a r.off r.len)
  | 0x42#8 => .ok (.encodeI32 r.a r.off r.len)
  | 0x43#8 => .ok (.encodeI64 r.a r.off r.len)
  | 0x44#8 => .ok (.encodeI128 r.a r.off r.len)
  | 0x48#8 => .ok (.decodeI8 r.off r.len)
  | 0x49#8 => .ok (.decodeI16 r.off r.len)
  | 0x4A#8 => .ok (.decodeI32 r.off r.len)
  | 0x4B#8 => .ok (.decodeI64 r.off r.len)
  | 0x4C#8 => .ok (.decodeI128 r.off r.len)
  | 0x82#8 => .ok (.encodeF32 r.a r.off r.len)
  | 0x83#8 => .ok (.encodeF64 r.a r.off r.len)
  | 0x8A#8 => .ok (.decodeF32 r.off r.len)
  | 0x8B#8 => .ok (.decodeF64 r.off r.len)
  | 0xC0#8 => .ok (.zigzagEncodeI8 r.a)
  | 0xC1#8 => .ok (.zigzagEncodeI16 r.a)
  | 0xC2#8 => .ok (.zigzagEncodeI32 r.a)
  | 0xC3#8 => .ok (.zigzagEncodeI64 r.a)
  | 0xC4#8 => .ok (.zigzagEncodeI128 r.a)
  | 0xC8#8 => .ok (.zigzagDecodeI8 r.a)
  | 0xC9#8 => .ok (.zigzagDecodeI16 r.a)
  | 0xCA#8 => .ok (.zigzagDecodeI32 r.a)
  | 0xCB#8 => .ok (.zigzagDecodeI64 r.a)
  | 0xCC#8 => .ok (.zigzagDecodeI128 r.a)
  | 0xD2#8 => .ok (.bitrevEncodeF32 r.a)
  | 0xD3#8 => .ok (.bitrevEncodeF64 r.a)
  | 0xDA#8 => .ok (.bitrevDecodeF32 r.a)
  | 0xDB#8 => .ok (.bitrevDecodeF64 r.a)
  | _ => .error (illegalReason r.op)

/-- The operation-select code of an operation (R62). -/
def opcode : Instr → BitVec 8
  | .encodeU8 _ _ _ => 0x00#8
  | .encodeU16 _ _ _ => 0x01#8
  | .encodeU32 _ _ _ => 0x02#8
  | .encodeU64 _ _ _ => 0x03#8
  | .encodeU128 _ _ _ => 0x04#8
  | .decodeU8 _ _ => 0x08#8
  | .decodeU16 _ _ => 0x09#8
  | .decodeU32 _ _ => 0x0A#8
  | .decodeU64 _ _ => 0x0B#8
  | .decodeU128 _ _ => 0x0C#8
  | .encodeI8 _ _ _ => 0x40#8
  | .encodeI16 _ _ _ => 0x41#8
  | .encodeI32 _ _ _ => 0x42#8
  | .encodeI64 _ _ _ => 0x43#8
  | .encodeI128 _ _ _ => 0x44#8
  | .decodeI8 _ _ => 0x48#8
  | .decodeI16 _ _ => 0x49#8
  | .decodeI32 _ _ => 0x4A#8
  | .decodeI64 _ _ => 0x4B#8
  | .decodeI128 _ _ => 0x4C#8
  | .encodeF32 _ _ _ => 0x82#8
  | .encodeF64 _ _ _ => 0x83#8
  | .decodeF32 _ _ => 0x8A#8
  | .decodeF64 _ _ => 0x8B#8
  | .zigzagEncodeI8 _ => 0xC0#8
  | .zigzagEncodeI16 _ => 0xC1#8
  | .zigzagEncodeI32 _ => 0xC2#8
  | .zigzagEncodeI64 _ => 0xC3#8
  | .zigzagEncodeI128 _ => 0xC4#8
  | .zigzagDecodeI8 _ => 0xC8#8
  | .zigzagDecodeI16 _ => 0xC9#8
  | .zigzagDecodeI32 _ => 0xCA#8
  | .zigzagDecodeI64 _ => 0xCB#8
  | .zigzagDecodeI128 _ => 0xCC#8
  | .bitrevEncodeF32 _ => 0xD2#8
  | .bitrevEncodeF64 _ => 0xD3#8
  | .bitrevDecodeF32 _ => 0xDA#8
  | .bitrevDecodeF64 _ => 0xDB#8

/-- The request that asks for an operation; a field the form ignores (R64) is 0. -/
def encode (i : Instr) : Request :=
  match i with
  | .encodeU8 a off len => ⟨0x00#8, a, off, len⟩
  | .encodeU16 a off len => ⟨0x01#8, a, off, len⟩
  | .encodeU32 a off len => ⟨0x02#8, a, off, len⟩
  | .encodeU64 a off len => ⟨0x03#8, a, off, len⟩
  | .encodeU128 a off len => ⟨0x04#8, a, off, len⟩
  | .decodeU8 off len => ⟨0x08#8, 0, off, len⟩
  | .decodeU16 off len => ⟨0x09#8, 0, off, len⟩
  | .decodeU32 off len => ⟨0x0A#8, 0, off, len⟩
  | .decodeU64 off len => ⟨0x0B#8, 0, off, len⟩
  | .decodeU128 off len => ⟨0x0C#8, 0, off, len⟩
  | .encodeI8 a off len => ⟨0x40#8, a, off, len⟩
  | .encodeI16 a off len => ⟨0x41#8, a, off, len⟩
  | .encodeI32 a off len => ⟨0x42#8, a, off, len⟩
  | .encodeI64 a off len => ⟨0x43#8, a, off, len⟩
  | .encodeI128 a off len => ⟨0x44#8, a, off, len⟩
  | .decodeI8 off len => ⟨0x48#8, 0, off, len⟩
  | .decodeI16 off len => ⟨0x49#8, 0, off, len⟩
  | .decodeI32 off len => ⟨0x4A#8, 0, off, len⟩
  | .decodeI64 off len => ⟨0x4B#8, 0, off, len⟩
  | .decodeI128 off len => ⟨0x4C#8, 0, off, len⟩
  | .encodeF32 a off len => ⟨0x82#8, a, off, len⟩
  | .encodeF64 a off len => ⟨0x83#8, a, off, len⟩
  | .decodeF32 off len => ⟨0x8A#8, 0, off, len⟩
  | .decodeF64 off len => ⟨0x8B#8, 0, off, len⟩
  | .zigzagEncodeI8 a => ⟨0xC0#8, a, 0, 0⟩
  | .zigzagEncodeI16 a => ⟨0xC1#8, a, 0, 0⟩
  | .zigzagEncodeI32 a => ⟨0xC2#8, a, 0, 0⟩
  | .zigzagEncodeI64 a => ⟨0xC3#8, a, 0, 0⟩
  | .zigzagEncodeI128 a => ⟨0xC4#8, a, 0, 0⟩
  | .zigzagDecodeI8 a => ⟨0xC8#8, a, 0, 0⟩
  | .zigzagDecodeI16 a => ⟨0xC9#8, a, 0, 0⟩
  | .zigzagDecodeI32 a => ⟨0xCA#8, a, 0, 0⟩
  | .zigzagDecodeI64 a => ⟨0xCB#8, a, 0, 0⟩
  | .zigzagDecodeI128 a => ⟨0xCC#8, a, 0, 0⟩
  | .bitrevEncodeF32 a => ⟨0xD2#8, a, 0, 0⟩
  | .bitrevEncodeF64 a => ⟨0xD3#8, a, 0, 0⟩
  | .bitrevDecodeF32 a => ⟨0xDA#8, a, 0, 0⟩
  | .bitrevDecodeF64 a => ⟨0xDB#8, a, 0, 0⟩

/-- The request whose bits are `w`: bits 7:0 are `op` and, where `nbits` reaches beyond them, the bits above are `a` (log 8). The fields
beyond `nbits` are 0. -/
def requestOfBits (nbits w : Nat) : Request :=
  { op := BitVec.ofNat 8 (w % 2 ^ nbits), a := BitVec.ofNat 128 ((w % 2 ^ nbits) >>> 8), off := 0, len := 0 }

/-- The operation the decoder reads from an instruction whose bits are `w`. -/
def decodeTableWord (nbits w : Nat) : Option Instr :=
  match decode (requestOfBits nbits w) with
  | .ok i => some i
  | .error _ => none

end Sys2Proof
end

