-- ==== Sys2Proof/Config.lean ====
section
/-! DEFINITION. What an implementation of the block fixes (R11, R25) and the one value the spec leaves free (R156).
`IDX_BITS` and `LATENCY` of R11 are open: the first is taken as unbounded naturals (R32, log 1), no rule depends on the second. -/

namespace Sys2Proof

/-- `WIDTH_POLICY` of R11: what a decode of a value wider than the target does (R83). -/
inductive WidthPolicy where
  | reject
  | truncate
deriving DecidableEq, Repr

/-- `ENC_CAPACITY_RULE` of R11: what an encode's capacity check measures (R69). -/
inductive CapacityRule where
  | maxLen
  | exact
deriving DecidableEq, Repr

/-- The two parameters fixed when the block is built (R25). The defaults are those of R11. -/
structure Build where
  widthPolicy  : WidthPolicy := .reject
  capacityRule : CapacityRule := .maxLen
deriving DecidableEq, Repr

/-- FREE VALUE (R156, log 3). Whether, when reset abandoned the `k`-th encode, the encode had already written its `i`-th byte.
It has no body, so no proof can know it. -/
opaque Config.abandonedWrite : Nat → Nat → Bool

end Sys2Proof
end

