-- ==== Sys2Proof/Machine/State.lean ====
section
/-! DEFINITION. The state of the block and of its host, the reasons a step can stop, and the state after reset. -/

namespace Sys2Proof.Machine

/-- Why the machine stops. -/
inductive Fault where
  /-- Raised by an `Intrusion` (R43, R159): another agent touched byte `addr` of the region of a BUSY request. Safe: the spec gives a
  race no value, and the model gives it none. -/
  | race (addr : Nat)
  /-- Raised by the host's `readResponse` and `skipFailed` before any response since reset (R30). Safe: the spec asks for the fault. -/
  | unwrittenResponse
  /-- Raised by the host's `readResponse` when the port holds a status of 5, 6 or 7 (93_implementation_defined.md item 12). Safe: no
  step gives one. -/
  | badStatus (code : BitVec 3)
deriving DecidableEq, Repr

/-- Why an instruction has no meaning. -/
inductive Refusal where
  /-- Raised by an arm of `exec` for an instruction that has no meaning yet. No arm does. Safe. -/
  | notModelled (mnemonic : String)
deriving DecidableEq, Repr

/-- A response on the response port (R21). -/
structure Response where
  status : BitVec 3
  trunc  : Bool
  r      : Word
  n      : BitVec 5
deriving DecidableEq, Repr

/-- The block's one piece of internal state (R28): IDLE, or BUSY with exactly one request, whose fields the request port holds (R20). -/
inductive Transaction where
  | idle
  | busy (req : Request)
deriving DecidableEq, Repr

/-- What can happen from outside while a request is BUSY (R43, R156, log 5). -/
inductive Intrusion where
  /-- Another agent writes a byte of the buffer. -/
  | write (addr : Nat) (b : Byte)
  /-- Another agent reads a byte of the buffer. -/
  | read (addr : Nat)
  /-- Reset arrives (R156). -/
  | reset
deriving DecidableEq, Repr

/-- A move of the host while the block is IDLE (R149, R23, R160, log 5). -/
inductive HostMove where
  /-- Present a request; `during` is what happens while it is BUSY. -/
  | request (req : Request) (during : List Intrusion)
  /-- Present a request at the caller's cursor (R17, R23). -/
  | requestAtCursor (op : BitVec 8) (a : Word) (len : Nat) (during : List Intrusion)
  /-- Read the response port (R30). -/
  | readResponse
  /-- Reset the block (R155). -/
  | reset
  /-- Write a byte of the caller's own buffer between requests (R31, R149). -/
  | writeByte (addr : Nat) (b : Byte)
  /-- Read a byte of the caller's own buffer between requests (R39). -/
  | readByte (addr : Nat)
  /-- Choose a cursor (R157, R160). -/
  | setCursor (c : Nat)
  /-- After a failure, add the response's `n` to the cursor (R160). -/
  | skipFailed
deriving DecidableEq, Repr

/-- The bytes of the caller buffer as (index, byte) pairs in one canonical form: indices strictly rising, and no pair whose byte is what
an unlisted index reads as (`Memory.wf` in Ops.lean). -/
abbrev Memory := List Host.Cell

/-- The machine. The first four fields are the block's (R28, R20, R21, R25), the next three the caller's (R31, R23, R162), the last
three the model's own (INVENTORY.md, logs 3 and 5). -/
structure State where
  trans      : Transaction
  rsp        : Option Response
  build      : Build
  buf        : Memory
  cursor     : Nat
  responses  : List Response
  inputs     : List HostMove
  intrusions : List Intrusion
  abandoned  : Nat
deriving DecidableEq, Repr

/-- The machine right after reset (R29, R155): IDLE, no request held, the response port empty (R30), the build parameters at their
defaults (R11). The caller's and the model's fields hold the values INVENTORY.md names (logs 2 to 5). -/
def State.reset : State :=
  { trans := .idle, rsp := none, build := {}, buf := [], cursor := 0, responses := [], inputs := [], intrusions := [], abandoned := 0 }

end Sys2Proof.Machine
end

