-- ==== Sys2Proof/Machine/Operands.lean ====
section
/-! DEFINITION. How an operation of width W reads its operand and places its result (R22), and the two views of a bit pattern (R15). -/

namespace Sys2Proof.Machine

/-- `req.a[W−1:0]` (R22): the bits above W are ignored. -/
def operand (w : Nat) (a : Word) : BitVec w := a.extractLsb' 0 w

/-- A W-bit result in `r` (R22): `r[W−1:0]` is the result and `r[127:W] = 0`, for signed results too. -/
def result {w : Nat} (y : BitVec w) : Word := y.setWidth 128

/-- `bits_W(s)` of R15: the two's complement pattern of a signed value. -/
def bitsOf (w : Nat) (s : Int) : BitVec w := BitVec.ofInt w s

/-- `sval_W(u)` of R15: the signed value of a W-bit pattern. -/
def signedValue {w : Nat} (u : BitVec w) : Int := if u.toNat < 2 ^ (w - 1) then u.toNat else u.toNat - 2 ^ w

/-- An encode that is to be done (R68, R116, R118): width, the unsigned value after any mapping, and the request's `off` and `len`. -/
structure EncodeJob where
  w   : Nat
  v   : Nat
  off : Nat
  len : Nat
deriving DecidableEq, Repr

end Sys2Proof.Machine
end

