-- ==== Sys2Proof/Machine/Flags.lean ====
section
/-! DEFINITION. The only flags of the block are the response fields `status` and `trunc` (R24): the status codes (R136) and the response
each outcome gives (R137 to R142). -/

namespace Sys2Proof.Machine

/-- `OK` (R136). -/
def statusOk : BitVec 3 := 0
/-- `ERR_CAPACITY` (R136). -/
def statusCapacity : BitVec 3 := 1
/-- `ERR_SHORT` (R136). -/
def statusShort : BitVec 3 := 2
/-- `ERR_WIDTH` (R136). -/
def statusWidth : BitVec 3 := 3
/-- `ERR_ILLEGAL_OP` (R136). -/
def statusIllegalOp : BitVec 3 := 4

/-- The failure kinds of R135. -/
inductive Failure where
  | capacity
  | short
  | width (n : Nat)   -- `n` is the length L of the well-formed encoding (R139)
  | illegalOp
deriving DecidableEq, Repr

/-- The response of a failure (R137, R138, R139, R141, R142). -/
def Failure.response : Failure → Response
  | .capacity  => ⟨statusCapacity, false, 0, 0⟩
  | .short     => ⟨statusShort, false, 0, 0⟩
  | .width n   => ⟨statusWidth, false, 0, BitVec.ofNat 5 n⟩
  | .illegalOp => ⟨statusIllegalOp, false, 0, 0⟩

/-- `OK(r, n)` of R16 with the truncation flag of R140. -/
def okResponse (trunc : Bool) (r : Word) (n : Nat) : Response := ⟨statusOk, trunc, r, BitVec.ofNat 5 n⟩

/-- Is this a status the block can give (R136)? Codes 5 to 7 are never produced. -/
def legalStatus (code : BitVec 3) : Bool := code.toNat ≤ 4

end Sys2Proof.Machine
end

