-- ==== Sys2Proof/Machine/Ops.lean ====
section
/-! DEFINITION. The named operations over the caller buffer (`MemRead` and `MemWrite` of R16) and over the ports: giving a response
(R21, R28) and raising a failure (R16, R142). -/

namespace Sys2Proof.Machine

/-- What a byte nobody has written reads as (log 2). -/
def Memory.unlisted : Byte := 0

/-- `MemRead(addr, 1)` of R16. Reading has no side effect (R39). -/
def Memory.read : Memory → Nat → Byte
  | [], _ => Memory.unlisted
  | (k, b) :: m, addr => if k = addr then b else Memory.read m addr

/-- Put a listed byte in its place among rising indices. -/
def Memory.insert : Memory → Nat → Byte → Memory
  | [], addr, b => [(addr, b)]
  | (k, c) :: m, addr, b => if addr < k then (addr, b) :: (k, c) :: m else (k, c) :: Memory.insert m addr b

/-- `MemWrite(addr, 1, b)` of R16. It changes only that byte (R39); a byte equal to what an unlisted index reads as is not listed. -/
def Memory.write (m : Memory) (addr : Nat) (b : Byte) : Memory :=
  let rest := m.filter (fun c => c.1 != addr)
  if b = Memory.unlisted then rest else Memory.insert rest addr b

/-- Writes at rising indices from `addr` on (the last loop of R68). -/
def Memory.writeBytes : Memory → Nat → List Byte → Memory
  | m, _, [] => m
  | m, addr, b :: bs => Memory.writeBytes (Memory.write m addr b) (addr + 1) bs

/-- Reads at the `n` rising indices from `addr` on (the loop of R79). -/
def Memory.readBytes (m : Memory) : Nat → Nat → List Byte
  | _, 0 => []
  | addr, n + 1 => Memory.read m addr :: Memory.readBytes m (addr + 1) n

/-- The writes an abandoned encode had made (R156, log 3): byte `i` of `bs` is written or not, as the free value says for abandoned
encode `k`. -/
def Memory.writeSome (k : Nat) : Memory → Nat → Nat → List Byte → Memory
  | m, _, _, [] => m
  | m, addr, i, b :: bs =>
    Memory.writeSome k (if Config.abandonedWrite k i then Memory.write m addr b else m) (addr + 1) (i + 1) bs

/-- The canonical form: indices strictly rising, no byte equal to what an unlisted index reads as. -/
def Memory.wf : Memory → Bool
  | [] => true
  | (k, b) :: m => b != Memory.unlisted && m.all (fun c => decide (k < c.1)) && Memory.wf m

/-- Give a response (R21) and return to IDLE (R28, R29): the port holds it and the request is no longer held. -/
def State.respond (s : State) (r : Response) : State :=
  { s with trans := .idle, rsp := some r, responses := s.responses ++ [r] }

/-- `raise <Error>(info)` of R16: complete the request with a failure's response. A failure is precise (R145): nothing else changes. -/
def State.raise (s : State) (f : Failure) : State := s.respond f.response

/-- Reset of the block (R29, R155): IDLE, no request, an empty response port. The build parameters, the buffer, the cursor and the
record of the run are not the block's to reset. -/
def State.resetBlock (s : State) : State := { s with trans := .idle, rsp := none, intrusions := [] }

end Sys2Proof.Machine
end

