-- ==== Sys2Proof/Machine/Zigzag.lean ====
section
/-! DEFINITION. The zigzag mapping (42_zigzag.md): ZZ_ENC and ZZ_DEC of R92 and R93, and the ten raw mapping operations. -/

namespace Sys2Proof.Machine

/-- ZZ_ENC(W) of R92: `t1 ^ t2` with `t1 = (x << 1) mod 2^W` and `t2` all ones if `x[W−1] = 1`, else 0. -/
def zzEnc {w : Nat} (x : BitVec w) : BitVec w := (x <<< 1) ^^^ (if x.getLsbD (w - 1) then BitVec.allOnes w else 0)

/-- ZZ_DEC(W) of R93: `t1 ^ t2` with `t1 = u >> 1` and `t2` all ones if `u & 1 = 1`, else 0. -/
def zzDec {w : Nat} (u : BitVec w) : BitVec w := (u >>> 1) ^^^ (if u.getLsbD 0 then BitVec.allOnes w else 0)

/-- A raw mapping operation (R96, R111): read `a[W−1:0]`, touch no memory, answer the mapped value zero-extended with `n = 0`. -/
def runMap (w : Nat) (f : BitVec w → BitVec w) (a : Word) (s : State) : Host.Outcome State Fault Refusal :=
  .next (s.respond (okResponse false (result (f (operand w a))) 0))

/-- `zigzag_encode_i8` (R97). -/
def execZigzagEncodeI8 (a : Word) (s : State) : Host.Outcome State Fault Refusal := runMap 8 zzEnc a s
/-- `zigzag_encode_i16` (R98). -/
def execZigzagEncodeI16 (a : Word) (s : State) : Host.Outcome State Fault Refusal := runMap 16 zzEnc a s
/-- `zigzag_encode_i32` (R99). -/
def execZigzagEncodeI32 (a : Word) (s : State) : Host.Outcome State Fault Refusal := runMap 32 zzEnc a s
/-- `zigzag_encode_i64` (R100). -/
def execZigzagEncodeI64 (a : Word) (s : State) : Host.Outcome State Fault Refusal := runMap 64 zzEnc a s
/-- `zigzag_encode_i128` (R101). -/
def execZigzagEncodeI128 (a : Word) (s : State) : Host.Outcome State Fault Refusal := runMap 128 zzEnc a s
/-- `zigzag_decode_i8` (R102). -/
def execZigzagDecodeI8 (a : Word) (s : State) : Host.Outcome State Fault Refusal := runMap 8 zzDec a s
/-- `zigzag_decode_i16` (R103). -/
def execZigzagDecodeI16 (a : Word) (s : State) : Host.Outcome State Fault Refusal := runMap 16 zzDec a s
/-- `zigzag_decode_i32` (R104). -/
def execZigzagDecodeI32 (a : Word) (s : State) : Host.Outcome State Fault Refusal := runMap 32 zzDec a s
/-- `zigzag_decode_i64` (R105). -/
def execZigzagDecodeI64 (a : Word) (s : State) : Host.Outcome State Fault Refusal := runMap 64 zzDec a s
/-- `zigzag_decode_i128` (R106). -/
def execZigzagDecodeI128 (a : Word) (s : State) : Host.Outcome State Fault Refusal := runMap 128 zzDec a s

end Sys2Proof.Machine
end

