-- ==== Sys2Proof/Machine/BitReverse.lean ====
section
/-! DEFINITION. The bit-reversal mapping (43_float_bitrev.md): REV of R107, and the four raw mapping operations. -/

namespace Sys2Proof.Machine

/-- The low `k` bits of REV(W, x): bit `j` is bit `W−1−j` of `x` (R107). -/
def revLow {w : Nat} (x : BitVec w) : Nat → Nat
  | 0 => 0
  | k + 1 => revLow x k + (x.getLsbD (w - 1 - k)).toNat <<< k

/-- REV(W, x) of R107: "bit i of the input becomes bit (W−1−i) of the output". It is a bit permutation and nothing else (R109). -/
def bitRev {w : Nat} (x : BitVec w) : BitVec w := BitVec.ofNat w (revLow x w)

/-- `bitrev_encode_f32` (R112). -/
def execBitrevEncodeF32 (a : Word) (s : State) : Host.Outcome State Fault Refusal := runMap 32 bitRev a s
/-- `bitrev_encode_f64` (R113). -/
def execBitrevEncodeF64 (a : Word) (s : State) : Host.Outcome State Fault Refusal := runMap 64 bitRev a s
/-- `bitrev_decode_f32` (R114). -/
def execBitrevDecodeF32 (a : Word) (s : State) : Host.Outcome State Fault Refusal := runMap 32 bitRev a s
/-- `bitrev_decode_f64` (R115). -/
def execBitrevDecodeF64 (a : Word) (s : State) : Host.Outcome State Fault Refusal := runMap 64 bitRev a s

end Sys2Proof.Machine
end

