-- ==== Sys2Proof/Machine/Wire.lean ====
section
/-! DEFINITION. The vu128 wire format (30_encoding.md Part A): classification by byte 0, payload assembly, the canonical encoding and
its lengths. Values are natural numbers (R14). -/

namespace Sys2Proof.Machine

/-- The shape of an encoding, derived once from byte 0 (R65): small, medium of L bytes in all, or large with N payload bytes. -/
inductive Shape where
  | small
  | medium (len : Nat)
  | large (count : Nat)
deriving DecidableEq, Repr

/-- The classification of byte 0 (R52). -/
def classify (b0 : Byte) : Shape :=
  if b0.extractLsb' 7 1 = 0b0#1 then .small
  else if b0.extractLsb' 6 2 = 0b10#2 then .medium 2
  else if b0.extractLsb' 5 3 = 0b110#3 then .medium 3
  else if b0.extractLsb' 4 4 = 0b1110#4 then .medium 4
  else .large ((b0 &&& 0x0F#8).toNat + 1)

/-- The total length L of an encoding of a shape (R49, R50, R51). -/
def Shape.totalLen : Shape → Nat
  | .small => 1
  | .medium len => len
  | .large count => count + 1

/-- `enc_total_len(b0)` of R52. -/
def encTotalLen (b0 : Byte) : Nat := (classify b0).totalLen

/-- `Σ_{i=1}^{n} b[i] << (8·(i−1))`: bytes read as little-endian (R13, R53). -/
def leValue : List Byte → Nat
  | [] => 0
  | b :: bs => b.toNat + (leValue bs <<< 8)

/-- The low `n` bytes of `s`, little-endian: `(s >> (8·j)) & 0xFF` for `j = 0 .. n−1` (R50, R68). -/
def leBytes : Nat → Nat → List Byte
  | 0, _ => []
  | n + 1, s => BitVec.ofNat 8 (s &&& 0xFF) :: leBytes n (s >>> 8)

/-- Payload assembly (R53): the value carried by an encoding of a shape, from byte 0 and the bytes after it. -/
def carried (sh : Shape) (b0 : Byte) (rest : List Byte) : Nat :=
  match sh with
  | .small => b0.toNat
  | .medium len => low b0.toNat (8 - len) ||| (leValue rest <<< (8 - len))
  | .large _ => leValue rest

/-- `L`, "the smallest of {2,3,4} such that v < 2^(7·L)" (R56). -/
def mediumLen (v : Nat) : Nat := ([2, 3, 4].find? (fun l => decide (v < 2 ^ (7 * l)))).getD 4

/-- `N`, "the smallest of 1..16 such that v < 2^(8·N)" (R56). -/
def largeCount (v : Nat) : Nat := ((List.range' 1 16).find? (fun n => decide (v < 2 ^ (8 * n)))).getD 16

/-- The medium form of `v` in `len` bytes (R50). -/
def mediumBytes (len v : Nat) : List Byte :=
  BitVec.ofNat 8 ((((2 ^ (len - 1) - 1) <<< 1) <<< (8 - len)) ||| low v (8 - len)) :: leBytes (len - 1) (v >>> (8 - len))

/-- The large form of `v` with `count` payload bytes (R51). -/
def largeBytes (count v : Nat) : List Byte := BitVec.ofNat 8 (0xF0 ||| (count - 1)) :: leBytes count v

/-- The canonical encoding (R56): the three steps of the encoder (R68). -/
def canonicalBytes (v : Nat) : List Byte :=
  if v < 2 ^ 7 then [BitVec.ofNat 8 v]
  else if v < 2 ^ 28 then mediumBytes (mediumLen v) v
  else largeBytes (largeCount v) v

/-- `enc_len(v)` of R57. -/
def encLen (v : Nat) : Nat :=
  if v < 2 ^ 7 then 1
  else if v < 2 ^ 14 then 2
  else if v < 2 ^ 21 then 3
  else if v < 2 ^ 28 then 4
  else 1 + (bitlen v + 7) / 8

/-- `MAX_ENC_LEN(W)` of R60: the largest canonical length of a W-bit value, `enc_len(2^W − 1)`. -/
def maxEncLen (w : Nat) : Nat := encLen (2 ^ w - 1)

end Sys2Proof.Machine
end

