-- ==== Sys2Proof/Machine/UnsignedDecode.lean ====
section
/-! DEFINITION. The unsigned decoder (41_unsigned_decode.md): DECODE_U of R79 as one shared operation, and `decode_u8` to `decode_u128`. -/

namespace Sys2Proof.Machine

/-- What DECODE_U ends in (R79): ERR_SHORT, ERR_WIDTH with the length, or a value with its truncation flag and length. -/
inductive DecodeResult where
  | short
  | tooWide (n : Nat)
  | value (trunc : Bool) (v n : Nat)
deriving DecidableEq, Repr

/-- The width check of R83 on the number `v` carried by an encoding of `n` bytes. -/
def widthCheck (p : WidthPolicy) (w v n : Nat) : DecodeResult :=
  if v < 2 ^ w then .value false v n
  else
    match p with
    | .reject => .tooWide n
    | .truncate => .value true (low v w) n

/-- DECODE_U (R79): byte 0 only after `off < len`, the other bytes only after `off + L ≤ len` (R80), then the width check (R83). -/
def decodeUnsigned (w off len : Nat) (s : State) : DecodeResult :=
  if len ≤ off then .short
  else
    let b0 := s.buf.read off
    let sh := classify b0
    if len < off + sh.totalLen then .short
    else widthCheck s.build.widthPolicy w (carried sh b0 (s.buf.readBytes (off + 1) (sh.totalLen - 1))) sh.totalLen

/-- A decode of width W whose unsigned number is mapped back by `back` (R117, R119; the identity for R79): run DECODE_U, pass a failure on
unchanged, answer the mapped number with `trunc` kept. -/
def runDecode (w : Nat) (back : BitVec w → BitVec w) (off len : Nat) (s : State) : Host.Outcome State Fault Refusal :=
  match decodeUnsigned w off len s with
  | .short => .next (s.raise .short)
  | .tooWide n => .next (s.raise (.width n))
  | .value trunc v n => .next (s.respond (okResponse trunc (result (back (BitVec.ofNat w v))) n))

/-- `decode_u8` (R87). -/
def execDecodeU8 (off len : Nat) (s : State) : Host.Outcome State Fault Refusal := runDecode 8 id off len s
/-- `decode_u16` (R88). -/
def execDecodeU16 (off len : Nat) (s : State) : Host.Outcome State Fault Refusal := runDecode 16 id off len s
/-- `decode_u32` (R89). -/
def execDecodeU32 (off len : Nat) (s : State) : Host.Outcome State Fault Refusal := runDecode 32 id off len s
/-- `decode_u64` (R90). -/
def execDecodeU64 (off len : Nat) (s : State) : Host.Outcome State Fault Refusal := runDecode 64 id off len s
/-- `decode_u128` (R91). -/
def execDecodeU128 (off len : Nat) (s : State) : Host.Outcome State Fault Refusal := runDecode 128 id off len s

end Sys2Proof.Machine
end

