-- ==== Sys2Proof/Machine/UnsignedEncode.lean ====
section
/-! DEFINITION. The unsigned encoder (40_unsigned_encode.md): ENCODE_U of R68 as one shared operation, and `encode_u8` to `encode_u128`. -/

namespace Sys2Proof.Machine

/-- The room an encode needs (R69): `MAX_ENC_LEN(W)` under `MAX_LEN`, `enc_len(v)` under `EXACT`. -/
def encodeNeed (b : Build) (j : EncodeJob) : Nat :=
  match b.capacityRule with
  | .maxLen => maxEncLen j.w
  | .exact => encLen j.v

/-- Does the capacity check of R69 pass? -/
def encodeFits (b : Build) (j : EncodeJob) : Bool := decide (j.off ≤ j.len) && decide (encodeNeed b j ≤ j.len - j.off)

/-- The bytes an encode writes from `off` on: its canonical encoding, or none when the capacity check fails (R70, R71). -/
def plannedBytes (b : Build) (j : EncodeJob) : List Byte := if encodeFits b j then canonicalBytes j.v else []

/-- ENCODE_U (R68): the capacity check, the writes, the response. -/
def runEncode (j : EncodeJob) (s : State) : Host.Outcome State Fault Refusal :=
  if encodeFits s.build j then
    .next (({ s with buf := s.buf.writeBytes j.off (canonicalBytes j.v) }).respond (okResponse false 0 (canonicalBytes j.v).length))
  else .next (s.raise .capacity)

/-- The job of an unsigned encode (R68): `v = req.a[W−1:0]`. -/
def unsignedJob (w : Nat) (a : Word) (off len : Nat) : EncodeJob := ⟨w, (operand w a).toNat, off, len⟩

/-- `encode_u8` (R74). -/
def execEncodeU8 (a : Word) (off len : Nat) (s : State) : Host.Outcome State Fault Refusal := runEncode (unsignedJob 8 a off len) s
/-- `encode_u16` (R75). -/
def execEncodeU16 (a : Word) (off len : Nat) (s : State) : Host.Outcome State Fault Refusal := runEncode (unsignedJob 16 a off len) s
/-- `encode_u32` (R76). -/
def execEncodeU32 (a : Word) (off len : Nat) (s : State) : Host.Outcome State Fault Refusal := runEncode (unsignedJob 32 a off len) s
/-- `encode_u64` (R77). -/
def execEncodeU64 (a : Word) (off len : Nat) (s : State) : Host.Outcome State Fault Refusal := runEncode (unsignedJob 64 a off len) s
/-- `encode_u128` (R78). -/
def execEncodeU128 (a : Word) (off len : Nat) (s : State) : Host.Outcome State Fault Refusal := runEncode (unsignedJob 128 a off len) s

end Sys2Proof.Machine
end

