-- ==== Sys2Proof/Machine/FloatCodec.lean ====
section
/-! DEFINITION. The float composite codec (44_composite.md): ENCODE_F and DECODE_F of R118 and R119 at the two widths. -/

namespace Sys2Proof.Machine

/-- The job of a float encode (R118): ENCODE_U on the bit-reversed operand. -/
def floatJob (w : Nat) (a : Word) (off len : Nat) : EncodeJob := ⟨w, (bitRev (operand w a)).toNat, off, len⟩

/-- `encode_f32` (R131). -/
def execEncodeF32 (a : Word) (off len : Nat) (s : State) : Host.Outcome State Fault Refusal := runEncode (floatJob 32 a off len) s
/-- `encode_f64` (R132). -/
def execEncodeF64 (a : Word) (off len : Nat) (s : State) : Host.Outcome State Fault Refusal := runEncode (floatJob 64 a off len) s
/-- `decode_f32` (R133). -/
def execDecodeF32 (off len : Nat) (s : State) : Host.Outcome State Fault Refusal := runDecode 32 bitRev off len s
/-- `decode_f64` (R134). -/
def execDecodeF64 (off len : Nat) (s : State) : Host.Outcome State Fault Refusal := runDecode 64 bitRev off len s

end Sys2Proof.Machine
end

