-- ==== Sys2Proof/Machine/SignedCodec.lean ====
section
/-! DEFINITION. The signed composite codec (44_composite.md): ENCODE_I and DECODE_I of R116 and R117 at the five widths. -/

namespace Sys2Proof.Machine

/-- The job of a signed encode (R116): ENCODE_U on the zigzag-mapped operand. -/
def signedJob (w : Nat) (a : Word) (off len : Nat) : EncodeJob := ⟨w, (zzEnc (operand w a)).toNat, off, len⟩

/-- `encode_i8` (R121). -/
def execEncodeI8 (a : Word) (off len : Nat) (s : State) : Host.Outcome State Fault Refusal := runEncode (signedJob 8 a off len) s
/-- `encode_i16` (R122). -/
def execEncodeI16 (a : Word) (off len : Nat) (s : State) : Host.Outcome State Fault Refusal := runEncode (signedJob 16 a off len) s
/-- `encode_i32` (R123). -/
def execEncodeI32 (a : Word) (off len : Nat) (s : State) : Host.Outcome State Fault Refusal := runEncode (signedJob 32 a off len) s
/-- `encode_i64` (R124). -/
def execEncodeI64 (a : Word) (off len : Nat) (s : State) : Host.Outcome State Fault Refusal := runEncode (signedJob 64 a off len) s
/-- `encode_i128` (R125). -/
def execEncodeI128 (a : Word) (off len : Nat) (s : State) : Host.Outcome State Fault Refusal := runEncode (signedJob 128 a off len) s
/-- `decode_i8` (R126). -/
def execDecodeI8 (off len : Nat) (s : State) : Host.Outcome State Fault Refusal := runDecode 8 zzDec off len s
/-- `decode_i16` (R127). -/
def execDecodeI16 (off len : Nat) (s : State) : Host.Outcome State Fault Refusal := runDecode 16 zzDec off len s
/-- `decode_i32` (R128). -/
def execDecodeI32 (off len : Nat) (s : State) : Host.Outcome State Fault Refusal := runDecode 32 zzDec off len s
/-- `decode_i64` (R129). -/
def execDecodeI64 (off len : Nat) (s : State) : Host.Outcome State Fault Refusal := runDecode 64 zzDec off len s
/-- `decode_i128` (R130). -/
def execDecodeI128 (off len : Nat) (s : State) : Host.Outcome State Fault Refusal := runDecode 128 zzDec off len s

end Sys2Proof.Machine
end

