-- ==== Sys2Proof/Machine/Caller.lean ====
section
/-! DEFINITION. What surrounds an operation: the encode a request stands for (needed when reset abandons it), the caller's moves and
cursor (R23, R149, R160), other agents' accesses during BUSY (R43, R159), and reset (R155, R156). -/

namespace Sys2Proof.Machine

/-- The encode an operation performs, for the twelve that perform one (R68, R116, R118). -/
def encodeJob : Instr → Option EncodeJob
  | .encodeU8 a off len => some (unsignedJob 8 a off len)
  | .encodeU16 a off len => some (unsignedJob 16 a off len)
  | .encodeU32 a off len => some (unsignedJob 32 a off len)
  | .encodeU64 a off len => some (unsignedJob 64 a off len)
  | .encodeU128 a off len => some (unsignedJob 128 a off len)
  | .decodeU8 _ _ => none
  | .decodeU16 _ _ => none
  | .decodeU32 _ _ => none
  | .decodeU64 _ _ => none
  | .decodeU128 _ _ => none
  | .encodeI8 a off len => some (signedJob 8 a off len)
  | .encodeI16 a off len => some (signedJob 16 a off len)
  | .encodeI32 a off len => some (signedJob 32 a off len)
  | .encodeI64 a off len => some (signedJob 64 a off len)
  | .encodeI128 a off len => some (signedJob 128 a off len)
  | .decodeI8 _ _ => none
  | .decodeI16 _ _ => none
  | .decodeI32 _ _ => none
  | .decodeI64 _ _ => none
  | .decodeI128 _ _ => none
  | .encodeF32 a off len => some (floatJob 32 a off len)
  | .encodeF64 a off len => some (floatJob 64 a off len)
  | .decodeF32 _ _ => none
  | .decodeF64 _ _ => none
  | .zigzagEncodeI8 _ => none
  | .zigzagEncodeI16 _ => none
  | .zigzagEncodeI32 _ => none
  | .zigzagEncodeI64 _ => none
  | .zigzagEncodeI128 _ => none
  | .zigzagDecodeI8 _ => none
  | .zigzagDecodeI16 _ => none
  | .zigzagDecodeI32 _ => none
  | .zigzagDecodeI64 _ => none
  | .zigzagDecodeI128 _ => none
  | .bitrevEncodeF32 _ => none
  | .bitrevEncodeF64 _ => none
  | .bitrevDecodeF32 _ => none
  | .bitrevDecodeF64 _ => none

/-- Is `addr` in the region `[off, len)` of a BUSY request that uses the buffer (R43, R159)? A mapping or an illegal request has no region
(R35, R64, R149, log 7). -/
def inBusyRegion (r : Request) (addr : Nat) : Bool :=
  match decode r with
  | .ok i => i.form != .map && decide (r.off ≤ addr) && decide (addr < r.len)
  | .error _ => false

/-- Does another agent's write of `addr` race with a BUSY request (R43, R159)? -/
def writeRaces (r : Request) (addr : Nat) : Bool := inBusyRegion r addr

/-- Does another agent's read of `addr` race with a BUSY request (R159, R152)? Every agent must leave the whole region alone, of a decode as
of an encode (log 6). -/
def readRaces (r : Request) (addr : Nat) : Bool := inBusyRegion r addr

/-- The writes an encode had made when reset abandoned it (R156): each byte it would have written is written or not, by the free value. -/
def State.partialEncode (s : State) (j : EncodeJob) : State :=
  { s with buf := Memory.writeSome s.abandoned s.buf j.off 0 (plannedBytes s.build j), abandoned := s.abandoned + 1 }

/-- Reset during a request (R156): the request gives no response; an encode leaves some of its bytes written, a decode, a mapping or an
illegal request leaves the buffer as it was; the block is reset (R155). -/
def State.abandon (s : State) (r : Request) : State :=
  match decode r with
  | .ok i =>
    match encodeJob i with
    | some j => (s.partialEncode j).resetBlock
    | none => s.resetBlock
  | .error _ => s.resetBlock

/-- One event from outside while request `r` is BUSY (R43, R156, R159). -/
def intrude (r : Request) (e : Intrusion) (s : State) : Host.Outcome State Fault Refusal :=
  match e with
  | .write addr b => if writeRaces r addr then .fault (.race addr) else .next { s with buf := s.buf.write addr b }
  | .read addr => if readRaces r addr then .fault (.race addr) else .next s
  | .reset => .next (s.abandon r)

/-- The block accepts a request (R28). -/
def State.accept (s : State) (r : Request) (during : List Intrusion) : State := { s with trans := .busy r, intrusions := during }

/-- One move of the host while the block is IDLE (R149). Reading the port before any response is a fault (R30), and so is a status the
block never gives (93_implementation_defined.md item 12). -/
def hostMove (m : HostMove) (s : State) : Host.Outcome State Fault Refusal :=
  match m with
  | .request r during => .next (s.accept r during)
  | .requestAtCursor op a len during => .next (s.accept ⟨op, a, s.cursor, len⟩ during)
  | .readResponse =>
    match s.rsp with
    | none => .fault .unwrittenResponse
    | some r => if legalStatus r.status then .next s else .fault (.badStatus r.status)
  | .reset => .next s.resetBlock
  | .writeByte addr b => .next { s with buf := s.buf.write addr b }
  | .readByte _ => .next s
  | .setCursor c => .next { s with cursor := c }
  | .skipFailed =>
    match s.rsp with
    | none => .fault .unwrittenResponse
    | some r => if r.status = statusOk then .next s else .next { s with cursor := s.cursor + r.n.toNat }

/-- The caller's cursor after a response (R23): after `OK` to an operation that uses the buffer it is `off + n`; otherwise it does not
move, and the caller decides (R160). -/
def State.threadCursor (s : State) (i : Instr) (r : Request) : State :=
  match s.rsp with
  | some p => if p.status = statusOk ∧ i.form ≠ .map then { s with cursor := r.off + p.n.toNat } else s
  | none => s

end Sys2Proof.Machine
end

