-- ==== Sys2Proof/Machine/Dispatch.lean ====
section
/-! DEFINITION. The meaning of every operation: one arm per constructor, each one direct call. -/

namespace Sys2Proof.Machine

def exec (i : Instr) (s : State) : Host.Outcome State Fault Refusal :=
  match i with
  | .encodeU8 a off len => Sys2Proof.Machine.execEncodeU8 a off len s
  | .encodeU16 a off len => Sys2Proof.Machine.execEncodeU16 a off len s
  | .encodeU32 a off len => Sys2Proof.Machine.execEncodeU32 a off len s
  | .encodeU64 a off len => Sys2Proof.Machine.execEncodeU64 a off len s
  | .encodeU128 a off len => Sys2Proof.Machine.execEncodeU128 a off len s
  | .decodeU8 off len => Sys2Proof.Machine.execDecodeU8 off len s
  | .decodeU16 off len => Sys2Proof.Machine.execDecodeU16 off len s
  | .decodeU32 off len => Sys2Proof.Machine.execDecodeU32 off len s
  | .decodeU64 off len => Sys2Proof.Machine.execDecodeU64 off len s
  | .decodeU128 off len => Sys2Proof.Machine.execDecodeU128 off len s
  | .encodeI8 a off len => Sys2Proof.Machine.execEncodeI8 a off len s
  | .encodeI16 a off len => Sys2Proof.Machine.execEncodeI16 a off len s
  | .encodeI32 a off len => Sys2Proof.Machine.execEncodeI32 a off len s
  | .encodeI64 a off len => Sys2Proof.Machine.execEncodeI64 a off len s
  | .encodeI128 a off len => Sys2Proof.Machine.execEncodeI128 a off len s
  | .decodeI8 off len => Sys2Proof.Machine.execDecodeI8 off len s
  | .decodeI16 off len => Sys2Proof.Machine.execDecodeI16 off len s
  | .decodeI32 off len => Sys2Proof.Machine.execDecodeI32 off len s
  | .decodeI64 off len => Sys2Proof.Machine.execDecodeI64 off len s
  | .decodeI128 off len => Sys2Proof.Machine.execDecodeI128 off len s
  | .encodeF32 a off len => Sys2Proof.Machine.execEncodeF32 a off len s
  | .encodeF64 a off len => Sys2Proof.Machine.execEncodeF64 a off len s
  | .decodeF32 off len => Sys2Proof.Machine.execDecodeF32 off len s
  | .decodeF64 off len => Sys2Proof.Machine.execDecodeF64 off len s
  | .zigzagEncodeI8 a => Sys2Proof.Machine.execZigzagEncodeI8 a s
  | .zigzagEncodeI16 a => Sys2Proof.Machine.execZigzagEncodeI16 a s
  | .zigzagEncodeI32 a => Sys2Proof.Machine.execZigzagEncodeI32 a s
  | .zigzagEncodeI64 a => Sys2Proof.Machine.execZigzagEncodeI64 a s
  | .zigzagEncodeI128 a => Sys2Proof.Machine.execZigzagEncodeI128 a s
  | .zigzagDecodeI8 a => Sys2Proof.Machine.execZigzagDecodeI8 a s
  | .zigzagDecodeI16 a => Sys2Proof.Machine.execZigzagDecodeI16 a s
  | .zigzagDecodeI32 a => Sys2Proof.Machine.execZigzagDecodeI32 a s
  | .zigzagDecodeI64 a => Sys2Proof.Machine.execZigzagDecodeI64 a s
  | .zigzagDecodeI128 a => Sys2Proof.Machine.execZigzagDecodeI128 a s
  | .bitrevEncodeF32 a => Sys2Proof.Machine.execBitrevEncodeF32 a s
  | .bitrevEncodeF64 a => Sys2Proof.Machine.execBitrevEncodeF64 a s
  | .bitrevDecodeF32 a => Sys2Proof.Machine.execBitrevDecodeF32 a s
  | .bitrevDecodeF64 a => Sys2Proof.Machine.execBitrevDecodeF64 a s

end Sys2Proof.Machine
end

