-- ==== Sys2Proof/Machine/Step.lean ====
section
/-! DEFINITION. One step of the block and its surroundings (R28, log 5), and how the host's checks place an instruction. -/

namespace Sys2Proof.Machine

/-- Run a request (R143): an illegal code first (R141), else the operation it asks for, after which the caller threads its cursor (R23). -/
def runRequest (r : Request) (s : State) : Host.Outcome State Fault Refusal :=
  match decode r with
  | .error _ => .next (s.raise .illegalOp)
  | .ok i =>
    match exec i s with
    | .next t => .next (t.threadCursor i r)
    | .fault f => .fault f
    | .refused f => .refused f

/-- One step. IDLE: the host's next move, or nothing while it has none. BUSY: what happens from outside during the request, one event a
step, and then the request itself. -/
def step (s : State) : Host.Outcome State Fault Refusal :=
  match s.trans with
  | .idle =>
    match s.inputs with
    | [] => .next s
    | m :: ms => hostMove m { s with inputs := ms }
  | .busy r =>
    match s.intrusions with
    | [] => runRequest r s
    | e :: es => intrude r e { s with intrusions := es }

/-- The request whose bits are `w` is on the request port, accepted, with nothing to come during it, so that the next step runs it
(log 8). -/
def State.withFetchWord (s : State) (nbits w : Nat) : State := { s with trans := .busy (requestOfBits nbits w), intrusions := [] }

end Sys2Proof.Machine
end

