-- ==== Sys2Proof/Machine/Assembler.lean ====
section
/-! DEFINITION. The program notation (R17, R66): a line of text, the request it stands for, and the moves of the host that issue the requests
of a program one after another. What the text leaves open is log 14. -/

namespace Sys2Proof.Machine

/-- Why a line is not a request (R66). -/
inductive AsmError where
  | unknownMnemonic           -- not one of the 38 of R62
  | badNumber                 -- not a decimal or `0x` hexadecimal number, or an operation code of more than 8 bits
  | wrongOperands             -- not the operands the form takes
  | literal (e : LiteralError) -- an operand R66 does not allow
deriving DecidableEq, Repr

/-- One line of a program (R66): the three forms, and `.req` with a raw operation code. -/
inductive Line where
  | memEnc (mnemonic : String) (off : Nat) (a : Literal)
  | memDec (mnemonic : String) (off : Nat)
  | map (mnemonic : String) (a : Literal)
  | req (op off : Nat) (a : Literal)
deriving DecidableEq, Repr

/-- The 38 operations with their operands at 0 (R62). -/
def templates : List Instr :=
  [.encodeU8 0 0 0, .encodeU16 0 0 0, .encodeU32 0 0 0, .encodeU64 0 0 0, .encodeU128 0 0 0,
   .decodeU8 0 0, .decodeU16 0 0, .decodeU32 0 0, .decodeU64 0 0, .decodeU128 0 0,
   .encodeI8 0 0 0, .encodeI16 0 0 0, .encodeI32 0 0 0, .encodeI64 0 0 0, .encodeI128 0 0 0,
   .decodeI8 0 0, .decodeI16 0 0, .decodeI32 0 0, .decodeI64 0 0, .decodeI128 0 0,
   .encodeF32 0 0 0, .encodeF64 0 0 0, .decodeF32 0 0, .decodeF64 0 0, .zigzagEncodeI8 0,
   .zigzagEncodeI16 0, .zigzagEncodeI32 0, .zigzagEncodeI64 0, .zigzagEncodeI128 0, .zigzagDecodeI8 0,
   .zigzagDecodeI16 0, .zigzagDecodeI32 0, .zigzagDecodeI64 0, .zigzagDecodeI128 0, .bitrevEncodeF32 0,
   .bitrevEncodeF64 0, .bitrevDecodeF32 0, .bitrevDecodeF64 0]

/-- The operation a mnemonic names (R62, R66). -/
def templateOf (m : String) : Option Instr := templates.find? (fun i => i.mnemonic == m)

/-- The operand of a line, at an operation's kind and width (R66). -/
def Line.operand (i : Instr) (a : Literal) : Except AsmError Word :=
  match Literal.pattern i.operandKind i.width a with
  | .ok p => .ok p
  | .error e => .error (.literal e)

/-- The request a line stands for, in a program whose buffer has `len` bytes (R17, R66). -/
def Line.request (len : Nat) : Line → Except AsmError Request
  | .memEnc m off a =>
    match templateOf m with
    | none => .error .unknownMnemonic
    | some i =>
      if i.form = .memEnc then
        match Line.operand i a with
        | .ok p => .ok ⟨opcode i, p, off, len⟩
        | .error e => .error e
      else .error .wrongOperands
  | .memDec m off =>
    match templateOf m with
    | none => .error .unknownMnemonic
    | some i => if i.form = .memDec then .ok ⟨opcode i, 0, off, len⟩ else .error .wrongOperands
  | .map m a =>
    match templateOf m with
    | none => .error .unknownMnemonic
    | some i =>
      if i.form = .map then
        match Line.operand i a with
        | .ok p => .ok ⟨opcode i, p, 0, len⟩
        | .error e => .error e
      else .error .wrongOperands
  | .req op off a =>
    if op < 256 then
      match Literal.pattern .unsigned 128 a with
      | .ok p => .ok ⟨BitVec.ofNat 8 op, p, off, len⟩
      | .error e => .error (.literal e)
    else .error .badNumber

/-! ## The text of a line -/

/-- The value of a digit in base 16. -/
def digitValue (c : Char) : Option Nat :=
  if '0' ≤ c ∧ c ≤ '9' then some (c.toNat - '0'.toNat)
  else if 'a' ≤ c ∧ c ≤ 'f' then some (c.toNat - 'a'.toNat + 10)
  else if 'A' ≤ c ∧ c ≤ 'F' then some (c.toNat - 'A'.toNat + 10)
  else none

/-- The number digits stand for in a base, read after a number `acc`. -/
def parseDigits (base : Nat) (acc : Nat) : List Char → Option Nat
  | [] => some acc
  | c :: cs =>
    match digitValue c with
    | some d => if d < base then parseDigits base (acc * base + d) cs else none
    | none => none

/-- At least one digit. -/
def parseNumber (base : Nat) (cs : List Char) : Option Nat := if cs.isEmpty then none else parseDigits base 0 cs

/-- "a decimal or `0x` hexadecimal natural" (R66). -/
def parseNat : List Char → Option Nat
  | '0' :: 'x' :: ds => parseNumber 16 ds
  | ds => parseNumber 10 ds

/-- "a `0x` hexadecimal bit pattern …, or a decimal integer" (R66). -/
def parseLiteral : List Char → Option Literal
  | '0' :: 'x' :: ds => (parseNumber 16 ds).map .hex
  | '-' :: ds => (parseNumber 10 ds).map (fun n => .dec (-(n : Int)))
  | ds => (parseNumber 10 ds).map (fun n => .dec (n : Int))

def isSpace (c : Char) : Bool := c == ' ' || c == '\t'

/-- Without the spaces at both ends. -/
def trim (l : List Char) : List Char := ((l.dropWhile isSpace).reverse.dropWhile isSpace).reverse

/-- The pieces between commas. -/
def splitComma : List Char → List (List Char)
  | [] => [[]]
  | c :: cs =>
    if c = ',' then [] :: splitComma cs
    else
      match splitComma cs with
      | [] => [[c]]
      | p :: ps => (c :: p) :: ps

/-- A line of text (R66), or nothing for a line that is empty but for a comment. DESIGN CHOICE (log 14): the `<op>` of a `.req` line is
written as `<off>` is, a decimal or `0x` hexadecimal natural; R66 gives it no number format. -/
def parseLine (text : String) : Except AsmError (Option Line) :=
  let t := trim (text.toList.takeWhile (fun c => c != ';'))
  let m := String.ofList (t.takeWhile (fun c => !isSpace c))
  let args := (splitComma (t.dropWhile (fun c => !isSpace c))).map trim
  if t.isEmpty then .ok none
  else if m == ".req" then
    match args with
    | [o, f, a] =>
      match parseNat o, parseNat f, parseLiteral a with
      | some op, some off, some l => .ok (some (.req op off l))
      | _, _, _ => .error .badNumber
    | _ => .error .wrongOperands
  else
    match templateOf m, args with
    | none, _ => .error .unknownMnemonic
    | some i, [x, y] =>
      if i.form = .memEnc then
        match parseNat x, parseLiteral y with
        | some off, some l => .ok (some (.memEnc m off l))
        | _, _ => .error .badNumber
      else .error .wrongOperands
    | some i, [x] =>
      match i.form with
      | .memEnc => .error .wrongOperands
      | .memDec =>
        match parseNat x with
        | some off => .ok (some (.memDec m off))
        | none => .error .badNumber
      | .map =>
        match parseLiteral x with
        | some l => .ok (some (.map m l))
        | none => .error .badNumber
    | some _, _ => .error .wrongOperands

/-- The requests of a program, line by line, or the first error (R17, R66). -/
def assemble (len : Nat) : List String → Except AsmError (List Request)
  | [] => .ok []
  | text :: rest =>
    match parseLine text with
    | .error e => .error e
    | .ok none => assemble len rest
    | .ok (some l) =>
      match l.request len with
      | .error e => .error e
      | .ok r =>
        match assemble len rest with
        | .ok rs => .ok (r :: rs)
        | .error e => .error e

/-- The host's moves that issue the requests of a program one after another, with nothing coming between (R17). -/
def programMoves (rs : List Request) : List HostMove := rs.map (fun r => .request r [])

end Sys2Proof.Machine
end

