-- ==== Sys2Proof/Safety.lean ====
section
/-! DEFINITION. The terms statements are made in: the operations by family, the wire format written as plain arithmetic beside the
model's own bit operations, what it is to answer a request, what a safe run is, and the invariant every step keeps. -/

namespace Sys2Proof.Safety

open Sys2Proof.Machine

/-! ## The operations by family, each with its width -/

/-- `encode_u8` to `encode_u128` (R74 to R78). -/
def unsignedEncodes : List (Nat × (Word → Nat → Nat → Instr)) :=
  [(8, .encodeU8), (16, .encodeU16), (32, .encodeU32), (64, .encodeU64), (128, .encodeU128)]

/-- `encode_i8` to `encode_i128` (R121 to R125). -/
def signedEncodes : List (Nat × (Word → Nat → Nat → Instr)) :=
  [(8, .encodeI8), (16, .encodeI16), (32, .encodeI32), (64, .encodeI64), (128, .encodeI128)]

/-- `encode_f32` and `encode_f64` (R131, R132). -/
def floatEncodes : List (Nat × (Word → Nat → Nat → Instr)) := [(32, .encodeF32), (64, .encodeF64)]

/-- The twelve encodes (R136). -/
def encodes : List (Nat × (Word → Nat → Nat → Instr)) := unsignedEncodes ++ signedEncodes ++ floatEncodes

/-- `decode_u8` to `decode_u128` (R87 to R91). -/
def unsignedDecodes : List (Nat × (Nat → Nat → Instr)) :=
  [(8, .decodeU8), (16, .decodeU16), (32, .decodeU32), (64, .decodeU64), (128, .decodeU128)]

/-- `decode_i8` to `decode_i128` (R126 to R130). -/
def signedDecodes : List (Nat × (Nat → Nat → Instr)) :=
  [(8, .decodeI8), (16, .decodeI16), (32, .decodeI32), (64, .decodeI64), (128, .decodeI128)]

/-- `decode_f32` and `decode_f64` (R133, R134). -/
def floatDecodes : List (Nat × (Nat → Nat → Instr)) := [(32, .decodeF32), (64, .decodeF64)]

/-- The twelve decodes (R136). -/
def decodes : List (Nat × (Nat → Nat → Instr)) := unsignedDecodes ++ signedDecodes ++ floatDecodes

/-- `zigzag_encode_i8` to `zigzag_encode_i128` (R97 to R101). -/
def zigzagEncodes : List (Nat × (Word → Instr)) :=
  [(8, .zigzagEncodeI8), (16, .zigzagEncodeI16), (32, .zigzagEncodeI32), (64, .zigzagEncodeI64), (128, .zigzagEncodeI128)]

/-- `zigzag_decode_i8` to `zigzag_decode_i128` (R102 to R106). -/
def zigzagDecodes : List (Nat × (Word → Instr)) :=
  [(8, .zigzagDecodeI8), (16, .zigzagDecodeI16), (32, .zigzagDecodeI32), (64, .zigzagDecodeI64), (128, .zigzagDecodeI128)]

/-- The four raw bit-reversal operations (R112 to R115). -/
def bitReversals : List (Nat × (Word → Instr)) :=
  [(32, .bitrevEncodeF32), (64, .bitrevEncodeF64), (32, .bitrevDecodeF32), (64, .bitrevDecodeF64)]

/-- The 38 legal operation codes, in order (R62, 95_test_vectors.md section 2.8). -/
def legalCodes : List Nat :=
  [0x00, 0x01, 0x02, 0x03, 0x04, 0x08, 0x09, 0x0A, 0x0B, 0x0C, 0x40, 0x41, 0x42, 0x43, 0x44, 0x48, 0x49, 0x4A, 0x4B, 0x4C,
   0x82, 0x83, 0x8A, 0x8B, 0xC0, 0xC1, 0xC2, 0xC3, 0xC4, 0xC8, 0xC9, 0xCA, 0xCB, 0xCC, 0xD2, 0xD3, 0xDA, 0xDB]

/-! ## The wire format as plain arithmetic -/

/-- How many bytes it takes to write `v`, up to `fuel`: the digits of `v` in base 256. -/
def byteCount : Nat → Nat → Nat
  | 0, _ => 0
  | fuel + 1, v => if v = 0 then 0 else byteCount fuel (v / 256) + 1

/-- The canonical length of `v` by the table of R57: four rows for the small and medium forms, then one byte more than it takes to write
`v`, which is the table's last row. -/
def wireLen (v : Nat) : Nat :=
  if v < 2 ^ 7 then 1 else if v < 2 ^ 14 then 2 else if v < 2 ^ 21 then 3 else if v < 2 ^ 28 then 4 else 1 + byteCount 16 v

/-- Byte `i` of the canonical encoding of `v` (R49, R50, R51, R56): the small form is `v`; the medium form of length L has the prefix
`256 − 2^(9−L)` plus the low `8 − L` bits, then `v / 2^(8−L)` little-endian; the large form has `0xF0 + (N − 1)`, then `v` little-endian. -/
def wireByte (v i : Nat) : Nat :=
  if v < 2 ^ 7 then v
  else if v < 2 ^ 28 then
    if i = 0 then 256 - 2 ^ (9 - wireLen v) + v % 2 ^ (8 - wireLen v) else v / 2 ^ (8 - wireLen v) / 256 ^ (i - 1) % 256
  else if i = 0 then 0xF0 + (wireLen v - 2)
  else v / 256 ^ (i - 1) % 256

/-- The total length byte 0 implies, row by row of the table of R52. -/
def prefixLen (b0 : Nat) : Nat :=
  if b0 < 0x80 then 1 else if b0 < 0xC0 then 2 else if b0 < 0xE0 then 3 else if b0 < 0xF0 then 4 else b0 - 0xF0 + 2

/-- `Σ_{i=1}^{n} b(i)·256^(i−1)`, the payload bytes as a little-endian number (R53). -/
def payloadSum (b : Nat → Nat) (n : Nat) : Nat := ((List.range n).map (fun j => b (j + 1) * 256 ^ j)).sum

/-- The number an encoding carries, from its bytes `b 0, b 1, …` (R53). -/
def wireValue (b : Nat → Nat) : Nat :=
  if b 0 < 0x80 then b 0
  else if b 0 < 0xF0 then b 0 % 2 ^ (8 - prefixLen (b 0)) + payloadSum b (prefixLen (b 0) - 1) * 2 ^ (8 - prefixLen (b 0))
  else payloadSum b (prefixLen (b 0) - 1)

/-- Byte `i` of the encoding at `off` in the buffer (R33), as a number. -/
def byteAt (s : State) (off i : Nat) : Nat := (s.buf.read (off + i)).toNat

/-- The total length of the encoding at `off` (R52). -/
def lengthAt (s : State) (off : Nat) : Nat := prefixLen (byteAt s off 0)

/-- The number the encoding at `off` carries (R53). -/
def valueAt (s : State) (off : Nat) : Nat := wireValue (byteAt s off)

/-- `2·s` if `s ≥ 0`, and `−2·s − 1` if `s < 0` (R92). -/
def zigzagNumber (s : Int) : Int := if 0 ≤ s then 2 * s else -2 * s - 1

/-- `u / 2` if `u` is even, and `−(u + 1) / 2` if `u` is odd (R93). -/
def unzigzagNumber (u : Nat) : Int := if u % 2 = 0 then (u : Int) / 2 else -(((u : Int) + 1) / 2)

/-- `y` is `x` with its bits in reverse order (R107). -/
def Reversed {w : Nat} (x y : BitVec w) : Prop := ∀ i, i < w → y.getLsbD (w - 1 - i) = x.getLsbD i

/-! ## Answering a request -/

/-- `t` is `s` after response `p` was given: IDLE again (R28), `p` on the port and at the end of the record, the build parameters, the
cursor, the host's moves and the model's counter as before. It says nothing of the buffer. -/
def Answered (s t : State) (p : Response) : Prop :=
  t.trans = .idle ∧ t.rsp = some p ∧ t.responses = s.responses ++ [p] ∧ t.build = s.build ∧ t.cursor = s.cursor ∧
    t.inputs = s.inputs ∧ t.intrusions = s.intrusions ∧ t.abandoned = s.abandoned

/-- Every byte of the buffer reads as before. -/
def SameBuffer (s t : State) : Prop := ∀ x, t.buf.read x = s.buf.read x

/-- The bytes from `off` on are the canonical encoding of `v`, and every other byte reads as before (R71). -/
def HoldsEncoding (s t : State) (off v : Nat) : Prop :=
  (∀ i, i < wireLen v → (t.buf.read (off + i)).toNat = wireByte v i) ∧
    ∀ x, x < off ∨ off + wireLen v ≤ x → t.buf.read x = s.buf.read x

/-- The capacity check of R69 as the two readings of `ENC_CAPACITY_RULE`, for a width with the given `MAX_ENC_LEN(W)` (R60). -/
def Room (b : Build) (maxLen off len v : Nat) : Prop :=
  off ≤ len ∧ (b.capacityRule = .maxLen → maxLen ≤ len - off) ∧ (b.capacityRule = .exact → wireLen v ≤ len - off)

/-- `MAX_ENC_LEN(W)`, row by row of the table of R60. -/
def maxLenOf (w : Nat) : Nat := if w = 8 then 2 else if w = 16 then 3 else if w = 32 then 5 else if w = 64 then 9 else 17

/-- The encoding at `off` is complete in a buffer of `len` bytes (R79, R138). -/
def Complete (s : State) (off len : Nat) : Prop := off < len ∧ off + lengthAt s off ≤ len

/-! ## The invariant -/

/-- A response the block can have given (R136, R139, R140, R142): a status of 0 to 4, at most 17 bytes, no value and no truncation in a
failure, a byte count in a failure only for ERR_WIDTH, which only REJECT gives, and a truncation flag only under TRUNCATE. -/
abbrev LegalResponse (b : Build) (p : Response) : Prop :=
  p.status.toNat ≤ 4 ∧ p.n.toNat ≤ 17 ∧
    (p.status ≠ statusOk → p.r = 0 ∧ p.trunc = false ∧ (p.status ≠ statusWidth → p.n = 0)) ∧
    (p.status = statusWidth → b.widthPolicy = .reject ∧ 2 ≤ p.n.toNat) ∧
    (p.trunc = true → b.widthPolicy = .truncate)

/-- The invariant: the buffer keeps its canonical form, every response given is legal, and the port holds the last of them or nothing. -/
abbrev Inv (s : State) : Prop :=
  s.buf.wf = true ∧ (∀ p ∈ s.responses, LegalResponse s.build p) ∧ (s.rsp = none ∨ s.rsp = s.responses.getLast?)

/-! ## Safe runs -/

/-- An event that neither races with request `r` (R43, R159) nor resets the block. -/
def Benign (r : Request) : Intrusion → Prop
  | .write addr _ => writeRaces r addr = false
  | .read addr => readRaces r addr = false
  | .reset => False

/-- A run has ended (R162): the block is IDLE and the host has no move left, so the response to the last request has been given. DESIGN
CHOICE (log 15): a run whose last request was abandoned by reset (R156), to which no response is ever given, counts as ended too; R162 does
not say. -/
def Ended (s : State) : Prop := s.trans = .idle ∧ s.inputs = []

/-- Requests issued one after another from an IDLE state `s` (R17, R42): each is accepted and run on the state the one before it left, `ps`
lists the answers in the order of the requests, and `t` is the state the last one leaves. -/
def AnswersInOrder : State → List Request → List Response → State → Prop
  | s, [], ps, t => ps = [] ∧ t = s
  | s, r :: rs, ps, t =>
    ∃ (u : State) (p : Response) (qs : List Response),
      runRequest r { s with trans := .busy r, intrusions := [], inputs := programMoves rs } = .next u ∧ u.rsp = some p ∧
        ps = p :: qs ∧ AnswersInOrder u rs qs t

/-- An outcome that is not a stop. -/
def Completes (o : Host.Outcome State Fault Refusal) : Prop := ∃ t, o = .next t

end Sys2Proof.Safety
end

