-- ==== Sys2Proof/Certificates/Slice0/Obligations.lean ====
section
/-! DEFINITION. The statements for the provers. Each docstring names the rule of spec/ it formalises, or says that it rests on a choice of
the model and names the log entry. -/

open Sys2Proof Sys2Proof.Machine Sys2Proof.Safety

/-! ## Operation codes and the step -/

/-- R62: each of the 38 codes decodes to its operation with the request fields its form uses, and no other code decodes. -/
def Obligations.OpcodeMapIsTheTable : Prop :=
  (∀ (a : Word) (off len : Nat),
    decode ⟨0x00, a, off, len⟩ = .ok (.encodeU8 a off len) ∧
    decode ⟨0x01, a, off, len⟩ = .ok (.encodeU16 a off len) ∧
    decode ⟨0x02, a, off, len⟩ = .ok (.encodeU32 a off len) ∧
    decode ⟨0x03, a, off, len⟩ = .ok (.encodeU64 a off len) ∧
    decode ⟨0x04, a, off, len⟩ = .ok (.encodeU128 a off len) ∧
    decode ⟨0x08, a, off, len⟩ = .ok (.decodeU8 off len) ∧
    decode ⟨0x09, a, off, len⟩ = .ok (.decodeU16 off len) ∧
    decode ⟨0x0A, a, off, len⟩ = .ok (.decodeU32 off len) ∧
    decode ⟨0x0B, a, off, len⟩ = .ok (.decodeU64 off len) ∧
    decode ⟨0x0C, a, off, len⟩ = .ok (.decodeU128 off len) ∧
    decode ⟨0x40, a, off, len⟩ = .ok (.encodeI8 a off len) ∧
    decode ⟨0x41, a, off, len⟩ = .ok (.encodeI16 a off len) ∧
    decode ⟨0x42, a, off, len⟩ = .ok (.encodeI32 a off len) ∧
    decode ⟨0x43, a, off, len⟩ = .ok (.encodeI64 a off len) ∧
    decode ⟨0x44, a, off, len⟩ = .ok (.encodeI128 a off len) ∧
    decode ⟨0x48, a, off, len⟩ = .ok (.decodeI8 off len) ∧
    decode ⟨0x49, a, off, len⟩ = .ok (.decodeI16 off len) ∧
    decode ⟨0x4A, a, off, len⟩ = .ok (.decodeI32 off len) ∧
    decode ⟨0x4B, a, off, len⟩ = .ok (.decodeI64 off len) ∧
    decode ⟨0x4C, a, off, len⟩ = .ok (.decodeI128 off len) ∧
    decode ⟨0x82, a, off, len⟩ = .ok (.encodeF32 a off len) ∧
    decode ⟨0x83, a, off, len⟩ = .ok (.encodeF64 a off len) ∧
    decode ⟨0x8A, a, off, len⟩ = .ok (.decodeF32 off len) ∧
    decode ⟨0x8B, a, off, len⟩ = .ok (.decodeF64 off len) ∧
    decode ⟨0xC0, a, off, len⟩ = .ok (.zigzagEncodeI8 a) ∧
    decode ⟨0xC1, a, off, len⟩ = .ok (.zigzagEncodeI16 a) ∧
    decode ⟨0xC2, a, off, len⟩ = .ok (.zigzagEncodeI32 a) ∧
    decode ⟨0xC3, a, off, len⟩ = .ok (.zigzagEncodeI64 a) ∧
    decode ⟨0xC4, a, off, len⟩ = .ok (.zigzagEncodeI128 a) ∧
    decode ⟨0xC8, a, off, len⟩ = .ok (.zigzagDecodeI8 a) ∧
    decode ⟨0xC9, a, off, len⟩ = .ok (.zigzagDecodeI16 a) ∧
    decode ⟨0xCA, a, off, len⟩ = .ok (.zigzagDecodeI32 a) ∧
    decode ⟨0xCB, a, off, len⟩ = .ok (.zigzagDecodeI64 a) ∧
    decode ⟨0xCC, a, off, len⟩ = .ok (.zigzagDecodeI128 a) ∧
    decode ⟨0xD2, a, off, len⟩ = .ok (.bitrevEncodeF32 a) ∧
    decode ⟨0xD3, a, off, len⟩ = .ok (.bitrevEncodeF64 a) ∧
    decode ⟨0xDA, a, off, len⟩ = .ok (.bitrevDecodeF32 a) ∧
    decode ⟨0xDB, a, off, len⟩ = .ok (.bitrevDecodeF64 a)) ∧
  ∀ r : Request, (∃ i, decode r = .ok i) ↔ r.op.toNat ∈ legalCodes

/-- R63: a code is illegal exactly when `rsv = 1`, or `map = 1` outside `cls = 11`, or `wc` is 101, 110 or 111, or it is a float or
bit-reversal code with `wc` not 010 or 011; there are 218 such codes, and each is answered with ERR_ILLEGAL_OP, no byte touched. -/
def Obligations.IllegalCodesAreThoseOfTheFields : Prop :=
  (∀ r : Request, (∃ e, decode r = .error e) ↔
    (r.op.toNat / 32 % 2 = 1 ∨
     (r.op.toNat / 16 % 2 = 1 ∧ r.op.toNat / 64 ≠ 3) ∨
     r.op.toNat % 8 = 5 ∨ r.op.toNat % 8 = 6 ∨ r.op.toNat % 8 = 7 ∨
     ((r.op.toNat / 64 = 2 ∨ (r.op.toNat / 64 = 3 ∧ r.op.toNat / 16 % 2 = 1)) ∧ r.op.toNat % 8 ≠ 2 ∧ r.op.toNat % 8 ≠ 3))) ∧
  ((List.range 256).filter (fun c => !legalCodes.contains c)).length = 218 ∧
  ∀ (r : Request) (e : DecodeError) (s : State), decode r = .error e →
    ∃ t, runRequest r s = .next t ∧ Answered s t ⟨4, false, 0, 0⟩ ∧ SameBuffer s t

/-- R141: a request with an illegal code is answered `{4, 0, 0, 0}`, whatever its other fields hold, and no byte of `B` changes. -/
def Obligations.IllegalCodeIsAnswered : Prop :=
  ∀ (s : State) (r : Request), s.trans = .busy r → s.intrusions = [] → r.op.toNat ∉ legalCodes →
    ∃ t, step s = .next t ∧ Answered s t ⟨4, false, 0, 0⟩ ∧ SameBuffer s t

/-- Decoding the request that asks for an operation gives the operation, with every operand at every value (R62, R64). -/
def Obligations.DecodeInvertsEncode : Prop := ∀ i : Instr, decode (encode i) = .ok i ∧ (encode i).op = opcode i

/-- Encoding the operation a request decodes to gives back the code and every field the form uses (R62, R64). -/
def Obligations.EncodeInvertsDecode : Prop :=
  ∀ (r : Request) (i : Instr), decode r = .ok i →
    opcode i = r.op ∧ (i.form ≠ .memDec → (encode i).a = r.a) ∧ (i.form ≠ .map → (encode i).off = r.off ∧ (encode i).len = r.len)

/-- A few words of the opcode table decode to the operations they stand for (R61, R62), and an illegal one to none. -/
def Obligations.TableWordsDecode : Prop :=
  decodeTableWord 8 0b00000000 = some (.encodeU8 0 0 0) ∧ decodeTableWord 8 0b00001100 = some (.decodeU128 0 0) ∧
  decodeTableWord 8 0b01000001 = some (.encodeI16 0 0 0) ∧ decodeTableWord 8 0b10001011 = some (.decodeF64 0 0) ∧
  decodeTableWord 8 0b11001100 = some (.zigzagDecodeI128 0) ∧ decodeTableWord 8 0b11010010 = some (.bitrevEncodeF32 0) ∧
  decodeTableWord 8 0b00100000 = none

/-- When the request on the port decodes to an operation and nothing more comes during it, the step is `exec` of that operation, after
which the caller threads its cursor (R23, log 11; what that does is `CursorIsThreaded`). -/
def Obligations.StepRunsTheDecodedOperation : Prop :=
  ∀ (s : State) (r : Request) (i : Instr), s.trans = .busy r → s.intrusions = [] → decode r = .ok i →
    ∃ t, exec i s = .next t ∧ step s = .next (t.threadCursor i r)

/-! ## The wire format -/

/-- What R52's table says of shape and total length: byte 0 alone fixes both, row by row. -/
def Obligations.PrefixByteFixesShapeAndLength : Prop :=
  ∀ b : Byte, encTotalLen b = prefixLen b.toNat ∧
    (b.toNat < 0x80 → classify b = .small) ∧
    (0x80 ≤ b.toNat → b.toNat < 0xC0 → classify b = .medium 2) ∧
    (0xC0 ≤ b.toNat → b.toNat < 0xE0 → classify b = .medium 3) ∧
    (0xE0 ≤ b.toNat → b.toNat < 0xF0 → classify b = .medium 4) ∧
    (0xF0 ≤ b.toNat → classify b = .large (b.toNat - 0xF0 + 1))

/-- R57: the canonical length by the table, its large-form rows written out and by the formula of its last row; it never decreases. -/
def Obligations.CanonicalLengthIsTheTable : Prop :=
  (∀ v, v < 2 ^ 128 → (canonicalBytes v).length = encLen v) ∧
  (∀ v, v < 2 ^ 7 → encLen v = 1) ∧ (∀ v, 2 ^ 7 ≤ v → v < 2 ^ 14 → encLen v = 2) ∧
  (∀ v, 2 ^ 14 ≤ v → v < 2 ^ 21 → encLen v = 3) ∧ (∀ v, 2 ^ 21 ≤ v → v < 2 ^ 28 → encLen v = 4) ∧
  (∀ n v, 4 ≤ n → n ≤ 16 → 2 ^ 28 ≤ v → 2 ^ (8 * (n - 1)) ≤ v → v < 2 ^ (8 * n) → encLen v = n + 1) ∧
  (∀ v, 2 ^ 28 ≤ v → v < 2 ^ 128 → encLen v = 1 + (bitlen v + 7) / 8) ∧
  ∀ u v, u ≤ v → v < 2 ^ 128 → encLen u ≤ encLen v

/-- R73: a greater value never has a shorter encoding, and a successful encode of width W reports at most `MAX_ENC_LEN(W)` bytes. -/
def Obligations.CompactnessIsMonotonic : Prop :=
  (∀ u v, u < v → v < 2 ^ 128 → (canonicalBytes u).length ≤ (canonicalBytes v).length) ∧
  ∀ w mk, (w, mk) ∈ encodes → ∀ (a : Word) (off len : Nat) (s : State),
    ∃ t p, exec (mk a off len) s = .next t ∧ t.rsp = some p ∧ (p.status = 0 → p.n.toNat ≤ maxLenOf w)

/-- R60: the table of `MAX_ENC_LEN(W)`, the canonical encoding of `2^W − 1`, and that no W-bit value is longer. -/
def Obligations.LongestEncodingPerWidth : Prop :=
  (maxEncLen 8 = 2 ∧ canonicalBytes (2 ^ 8 - 1) = [0xBF, 0x03]) ∧
  (maxEncLen 16 = 3 ∧ canonicalBytes (2 ^ 16 - 1) = [0xDF, 0xFF, 0x07]) ∧
  (maxEncLen 32 = 5 ∧ canonicalBytes (2 ^ 32 - 1) = 0xF3 :: List.replicate 4 0xFF) ∧
  (maxEncLen 64 = 9 ∧ canonicalBytes (2 ^ 64 - 1) = 0xF7 :: List.replicate 8 0xFF) ∧
  (maxEncLen 128 = 17 ∧ canonicalBytes (2 ^ 128 - 1) = 0xFF :: List.replicate 16 0xFF) ∧
  ∀ w, w ∈ [8, 16, 32, 64, 128] → ∀ v, v < 2 ^ w → (canonicalBytes v).length ≤ maxEncLen w

/-- R58: no encoding of a value is shorter than the canonical one; in three ranges a large form of the same length carries the value
too, and the canonical encoding is the medium one. -/
def Obligations.CanonicalIsShortest : Prop :=
  (∀ (b0 : Byte) (rest : List Byte), rest.length + 1 = encTotalLen b0 →
    (canonicalBytes (carried (classify b0) b0 rest)).length ≤ rest.length + 1) ∧
  ∀ n v, (n = 1 ∧ 2 ^ 7 ≤ v ∧ v < 2 ^ 8) ∨ (n = 2 ∧ 2 ^ 14 ≤ v ∧ v < 2 ^ 16) ∨ (n = 3 ∧ 2 ^ 21 ≤ v ∧ v < 2 ^ 24) →
    ∃ (b0 : Byte) (rest : List Byte), classify b0 = .large n ∧ rest.length + 1 = encTotalLen b0 ∧ carried (classify b0) b0 rest = v ∧
      rest.length + 1 = (canonicalBytes v).length ∧ classify ((canonicalBytes v).headD 0) = .medium (n + 1)

/-- R53: the value an encoding carries, as a number assembled from its bytes. -/
def Obligations.PayloadIsAssembledLittleEndian : Prop :=
  ∀ (b0 : Byte) (rest : List Byte), rest.length + 1 = encTotalLen b0 →
    carried (classify b0) b0 rest = wireValue (fun i => ((b0 :: rest)[i]?.getD 0).toNat)

/-- R84: the largest number any encoding carries is 2^128 − 1 (the large form has at most 16 payload bytes, the medium form carries at most
28 bits), so `decode_u128` never raises ERR_WIDTH and never sets `trunc`. -/
def Obligations.NoWidthMismatchAt128 : Prop :=
  (∀ (b0 : Byte) (rest : List Byte), rest.length + 1 = encTotalLen b0 →
    carried (classify b0) b0 rest ≤ 2 ^ 128 - 1 ∧ (∀ n, classify b0 = .large n → 1 ≤ n ∧ n ≤ 16) ∧
      (∀ l, classify b0 = .medium l → carried (classify b0) b0 rest < 2 ^ 28)) ∧
  (∃ (b0 : Byte) (rest : List Byte), rest.length + 1 = encTotalLen b0 ∧ carried (classify b0) b0 rest = 2 ^ 128 - 1) ∧
  ∀ (off len : Nat) (s : State), ∃ t p, exec (.decodeU128 off len) s = .next t ∧ t.rsp = some p ∧ p.status ≠ 3 ∧ p.trunc = false

/-- R86: which values of byte 0 begin an encoding that can carry a number too wide for each target. -/
def Obligations.WidthMismatchByPrefixByte : Prop :=
  ∀ b0 : Byte,
    ((∃ rest : List Byte, rest.length + 1 = encTotalLen b0 ∧ 2 ^ 8 ≤ carried (classify b0) b0 rest) ↔
      (0x80 ≤ b0.toNat ∧ b0.toNat ≤ 0xEF) ∨ 0xF1 ≤ b0.toNat) ∧
    ((∃ rest : List Byte, rest.length + 1 = encTotalLen b0 ∧ 2 ^ 16 ≤ carried (classify b0) b0 rest) ↔
      (0xC0 ≤ b0.toNat ∧ b0.toNat ≤ 0xEF) ∨ 0xF2 ≤ b0.toNat) ∧
    ((∃ rest : List Byte, rest.length + 1 = encTotalLen b0 ∧ 2 ^ 32 ≤ carried (classify b0) b0 rest) ↔ 0xF4 ≤ b0.toNat) ∧
    ((∃ rest : List Byte, rest.length + 1 = encTotalLen b0 ∧ 2 ^ 64 ≤ carried (classify b0) b0 rest) ↔ 0xF8 ≤ b0.toNat) ∧
    ¬ ∃ rest : List Byte, rest.length + 1 = encTotalLen b0 ∧ 2 ^ 128 ≤ carried (classify b0) b0 rest

/-! ## Encodes -/

/-- R71 for `encode_u8` to `encode_u128`: with room, the canonical encoding of `a[W−1:0]` is written at `off`, every other byte stays,
and the answer is `{OK, 0, 0, enc_len(v)}`. -/
def Obligations.UnsignedEncodeWritesCanonical : Prop :=
  ∀ w mk, (w, mk) ∈ unsignedEncodes → ∀ (a : Word) (off len : Nat) (s : State),
    Room s.build (maxLenOf w) off len (a.toNat % 2 ^ w) →
    ∃ t, exec (mk a off len) s = .next t ∧ Answered s t ⟨0, false, 0, BitVec.ofNat 5 (wireLen (a.toNat % 2 ^ w))⟩ ∧
      HoldsEncoding s t off (a.toNat % 2 ^ w)

/-- R116 for `encode_i8` to `encode_i128`, where there is room: ENCODE_U on the number the zigzag mapping gives the signed operand. -/
def Obligations.SignedEncodeWritesZigzag : Prop :=
  ∀ w mk, (w, mk) ∈ signedEncodes → ∀ (a : Word) (off len : Nat) (s : State) (v : Nat),
    (v : Int) = zigzagNumber (a.setWidth w).toInt → Room s.build (maxLenOf w) off len v →
    ∃ t, exec (mk a off len) s = .next t ∧ Answered s t ⟨0, false, 0, BitVec.ofNat 5 (wireLen v)⟩ ∧ HoldsEncoding s t off v

/-- R118 for `encode_f32` and `encode_f64`, where there is room: ENCODE_U on the bit-reversed operand. -/
def Obligations.FloatEncodeWritesReversed : Prop :=
  ∀ w mk, (w, mk) ∈ floatEncodes → ∀ (a : Word) (off len : Nat) (s : State) (u : BitVec w),
    Reversed (a.setWidth w) u → Room s.build (maxLenOf w) off len u.toNat →
    ∃ t, exec (mk a off len) s = .next t ∧ Answered s t ⟨0, false, 0, BitVec.ofNat 5 (wireLen u.toNat)⟩ ∧ HoldsEncoding s t off u.toNat

/-- R70 and R137 for the twelve encodes: when the capacity check fails, the answer is `{ERR_CAPACITY, 0, 0, 0}` and no byte changes. -/
def Obligations.EncodeWithoutRoomWritesNothing : Prop :=
  (∀ w mk, (w, mk) ∈ unsignedEncodes → ∀ (a : Word) (off len : Nat) (s : State),
    ¬ Room s.build (maxLenOf w) off len (a.toNat % 2 ^ w) →
    ∃ t, exec (mk a off len) s = .next t ∧ Answered s t ⟨1, false, 0, 0⟩ ∧ SameBuffer s t) ∧
  (∀ w mk, (w, mk) ∈ signedEncodes → ∀ (a : Word) (off len : Nat) (s : State) (v : Nat),
    (v : Int) = zigzagNumber (a.setWidth w).toInt → ¬ Room s.build (maxLenOf w) off len v →
    ∃ t, exec (mk a off len) s = .next t ∧ Answered s t ⟨1, false, 0, 0⟩ ∧ SameBuffer s t) ∧
  ∀ w mk, (w, mk) ∈ floatEncodes → ∀ (a : Word) (off len : Nat) (s : State) (u : BitVec w),
    Reversed (a.setWidth w) u → ¬ Room s.build (maxLenOf w) off len u.toNat →
    ∃ t, exec (mk a off len) s = .next t ∧ Answered s t ⟨1, false, 0, 0⟩ ∧ SameBuffer s t

/-- R69 for the twelve encodes: under MAX_LEN an encode of width W succeeds exactly when `off ≤ len` and `len − off ≥ MAX_ENC_LEN(W)`,
whatever the value; under EXACT (unsigned encodes) the test is against the length of the value; a failed check is ERR_CAPACITY. -/
def Obligations.CapacityCheckDecidesSuccess : Prop :=
  (∀ w mk, (w, mk) ∈ encodes → ∀ (a : Word) (off len : Nat) (s : State), s.build.capacityRule = .maxLen →
    ∃ t p, exec (mk a off len) s = .next t ∧ t.rsp = some p ∧
      p.status = if off ≤ len ∧ maxLenOf w ≤ len - off then 0 else 1) ∧
  ∀ w mk, (w, mk) ∈ unsignedEncodes → ∀ (a : Word) (off len : Nat) (s : State), s.build.capacityRule = .exact →
    ∃ t p, exec (mk a off len) s = .next t ∧ t.rsp = some p ∧
      p.status = if off ≤ len ∧ wireLen (a.toNat % 2 ^ w) ≤ len - off then 0 else 1

/-- What R22 says: an operation of width W ignores the operand's bits above W, and every result of width W lies below 2^W. -/
def Obligations.OnlyTheOperandsWidthCounts : Prop :=
  (∀ w mk, (w, mk) ∈ encodes → ∀ (a a' : Word) (off len : Nat) (s : State), a.toNat % 2 ^ w = a'.toNat % 2 ^ w →
    exec (mk a off len) s = exec (mk a' off len) s) ∧
  (∀ w mk, (w, mk) ∈ zigzagEncodes ++ zigzagDecodes ++ bitReversals → ∀ (a a' : Word) (s : State), a.toNat % 2 ^ w = a'.toNat % 2 ^ w →
    exec (mk a) s = exec (mk a') s) ∧
  (∀ w mk, (w, mk) ∈ decodes → ∀ (off len : Nat) (s : State),
    ∃ t p, exec (mk off len) s = .next t ∧ t.rsp = some p ∧ p.r.toNat < 2 ^ w) ∧
  ∀ w mk, (w, mk) ∈ zigzagEncodes ++ zigzagDecodes ++ bitReversals → ∀ (a : Word) (s : State),
    ∃ t p, exec (mk a) s = .next t ∧ t.rsp = some p ∧ p.r.toNat < 2 ^ w

/-! ## Decodes -/

/-- R82 for `decode_u8` to `decode_u128`: any complete encoding, canonical or not, whose number fits is answered
`{OK, 0, v, L}`, and no byte changes. -/
def Obligations.UnsignedDecodeAnswersTheNumber : Prop :=
  ∀ w mk, (w, mk) ∈ unsignedDecodes → ∀ (off len : Nat) (s : State), Complete s off len → valueAt s off < 2 ^ w →
    ∃ t, exec (mk off len) s = .next t ∧
      Answered s t ⟨0, false, BitVec.ofNat 128 (valueAt s off), BitVec.ofNat 5 (lengthAt s off)⟩ ∧ SameBuffer s t

/-- R117 for `decode_i8` to `decode_i128`, where the number fits: the answer is the W-bit pattern of the signed value the number stands
for, zero-extended. -/
def Obligations.SignedDecodeAnswersTheSignedValue : Prop :=
  ∀ w mk, (w, mk) ∈ signedDecodes → ∀ (off len : Nat) (s : State), Complete s off len → valueAt s off < 2 ^ w →
    ∃ (t : State) (y : BitVec w), exec (mk off len) s = .next t ∧ y.toInt = unzigzagNumber (valueAt s off) ∧
      Answered s t ⟨0, false, y.setWidth 128, BitVec.ofNat 5 (lengthAt s off)⟩ ∧ SameBuffer s t

/-- R119 for `decode_f32` and `decode_f64`, where the number fits: the answer is the number with its bits reversed. -/
def Obligations.FloatDecodeAnswersThePattern : Prop :=
  ∀ w mk, (w, mk) ∈ floatDecodes → ∀ (off len : Nat) (s : State), Complete s off len → valueAt s off < 2 ^ w →
    ∃ (t : State) (y : BitVec w), exec (mk off len) s = .next t ∧ Reversed (BitVec.ofNat w (valueAt s off)) y ∧
      Answered s t ⟨0, false, y.setWidth 128, BitVec.ofNat 5 (lengthAt s off)⟩ ∧ SameBuffer s t

/-- R138 for the twelve decodes: a buffer that ends before the encoding does is answered `{ERR_SHORT, 0, 0, 0}`. -/
def Obligations.ShortBufferIsAnswered : Prop :=
  ∀ w mk, (w, mk) ∈ decodes → ∀ (off len : Nat) (s : State), ¬ Complete s off len →
    ∃ t, exec (mk off len) s = .next t ∧ Answered s t ⟨2, false, 0, 0⟩ ∧ SameBuffer s t

/-- R139 for the ten decodes with W < 128: under REJECT a number too wide is answered `{ERR_WIDTH, 0, 0, L}`; for a composite decode it
is the number before the inverse mapping. -/
def Obligations.TooWideIsRejected : Prop :=
  ∀ w mk, (w, mk) ∈ decodes → w < 128 → ∀ (off len : Nat) (s : State), Complete s off len → 2 ^ w ≤ valueAt s off →
    s.build.widthPolicy = .reject →
    ∃ t, exec (mk off len) s = .next t ∧ Answered s t ⟨3, false, 0, BitVec.ofNat 5 (lengthAt s off)⟩ ∧ SameBuffer s t

/-- R140: under TRUNCATE a number too wide is answered `{OK, 1, low(v, W), L}`, and a composite decode maps `low(v, W)` back first. -/
def Obligations.TooWideIsTruncatedAndFlagged : Prop :=
  (∀ w mk, (w, mk) ∈ unsignedDecodes → ∀ (off len : Nat) (s : State), Complete s off len → 2 ^ w ≤ valueAt s off →
    s.build.widthPolicy = .truncate →
    ∃ t, exec (mk off len) s = .next t ∧
      Answered s t ⟨0, true, BitVec.ofNat 128 (valueAt s off % 2 ^ w), BitVec.ofNat 5 (lengthAt s off)⟩ ∧ SameBuffer s t) ∧
  (∀ w mk, (w, mk) ∈ signedDecodes → ∀ (off len : Nat) (s : State), Complete s off len → 2 ^ w ≤ valueAt s off →
    s.build.widthPolicy = .truncate →
    ∃ (t : State) (y : BitVec w), exec (mk off len) s = .next t ∧ y.toInt = unzigzagNumber (valueAt s off % 2 ^ w) ∧
      Answered s t ⟨0, true, y.setWidth 128, BitVec.ofNat 5 (lengthAt s off)⟩ ∧ SameBuffer s t) ∧
  ∀ w mk, (w, mk) ∈ floatDecodes → ∀ (off len : Nat) (s : State), Complete s off len → 2 ^ w ≤ valueAt s off →
    s.build.widthPolicy = .truncate →
    ∃ (t : State) (y : BitVec w), exec (mk off len) s = .next t ∧ Reversed (BitVec.ofNat w (valueAt s off)) y ∧
      Answered s t ⟨0, true, y.setWidth 128, BitVec.ofNat 5 (lengthAt s off)⟩ ∧ SameBuffer s t

/-- R81: no decode changes a byte of `B`, on success or on failure. -/
def Obligations.DecodeWritesNothing : Prop :=
  ∀ w mk, (w, mk) ∈ decodes → ∀ (off len : Nat) (s : State), ∃ t, exec (mk off len) s = .next t ∧ SameBuffer s t

/-- What R80 and R35 let a decode read: its answer depends on byte 0, and that only when `off < len`, and on the bytes up to
`off + L − 1`, and those only when `off + L ≤ len`. -/
def Obligations.DecodeReadsOnlyItsEncoding : Prop :=
  ∀ w mk, (w, mk) ∈ decodes → ∀ (off len : Nat) (s s' : State), s.build = s'.build →
    (off < len → s.buf.read off = s'.buf.read off) →
    (off + lengthAt s off ≤ len → ∀ x, off < x → x < off + lengthAt s off → s.buf.read x = s'.buf.read x) →
    ∃ t t' p, exec (mk off len) s = .next t ∧ exec (mk off len) s' = .next t' ∧ t.rsp = some p ∧ t'.rsp = some p

/-- What R83 asks of a narrow decode: an `OK` without the truncation flag is what `decode_u128` answers on the same bytes. -/
def Obligations.NoSilentNarrowing : Prop :=
  ∀ w mk, (w, mk) ∈ unsignedDecodes → ∀ (off len : Nat) (s : State),
    ∃ t p u q, exec (mk off len) s = .next t ∧ t.rsp = some p ∧ exec (.decodeU128 off len) s = .next u ∧ u.rsp = some q ∧
      (p.status = 0 → p.trunc = false → p = q)

/-! ## Raw mappings -/

/-- R96 for the ten raw zigzag operations: with the mapped value by the arithmetic forms of R92 and R93, the answer is
`{OK, 0, value, 0}`, and no byte changes. -/
def Obligations.ZigzagOperationsAnswer : Prop :=
  (∀ w mk, (w, mk) ∈ zigzagEncodes → ∀ (a : Word) (s : State),
    ∃ (t : State) (u : BitVec w), exec (mk a) s = .next t ∧ (u.toNat : Int) = zigzagNumber (a.setWidth w).toInt ∧
      Answered s t ⟨0, false, u.setWidth 128, 0⟩ ∧ SameBuffer s t) ∧
  ∀ w mk, (w, mk) ∈ zigzagDecodes → ∀ (a : Word) (s : State),
    ∃ (t : State) (y : BitVec w), exec (mk a) s = .next t ∧ y.toInt = unzigzagNumber (a.toNat % 2 ^ w) ∧
      Answered s t ⟨0, false, y.setWidth 128, 0⟩ ∧ SameBuffer s t

/-- R94: the two zigzag mappings are inverse bijections at every width, and the mapping goes 0→0, −1→1, 1→2, −2→3. -/
def Obligations.ZigzagIsABijection : Prop :=
  ∀ w, w ∈ [8, 16, 32, 64, 128] →
    (∀ x : BitVec w, zzDec (zzEnc x) = x) ∧ (∀ u : BitVec w, zzEnc (zzDec u) = u) ∧
    zzEnc (BitVec.ofInt w 0) = 0 ∧ zzEnc (BitVec.ofInt w (-1)) = 1 ∧ zzEnc (BitVec.ofInt w 1) = 2 ∧ zzEnc (BitVec.ofInt w (-2)) = 3

/-- R95: the greatest signed value and 2^W − 2 stand for each other, as do the least and 2^W − 1; small magnitudes have 1-byte codes. -/
def Obligations.ZigzagExtremes : Prop :=
  ∀ w, w ∈ [8, 16, 32, 64, 128] → ∀ x : BitVec w,
    (x.toInt = 2 ^ (w - 1) - 1 ↔ (zzEnc x).toNat = 2 ^ w - 2) ∧
    (x.toInt = -2 ^ (w - 1) ↔ (zzEnc x).toNat = 2 ^ w - 1) ∧
    (zzDec (BitVec.ofNat w (2 ^ w - 2))).toInt = 2 ^ (w - 1) - 1 ∧ (zzDec (BitVec.ofNat w (2 ^ w - 1))).toInt = -2 ^ (w - 1) ∧
    (-64 < x.toInt → x.toInt < 64 → (zzEnc x).toNat < 128 ∧ wireLen (zzEnc x).toNat = 1)

/-- R107 and R111 for the four raw bit-reversal operations: bit i of the operand is bit W−1−i of the answer `{OK, 0, y, 0}`. -/
def Obligations.BitReversalOperationsAnswer : Prop :=
  ∀ w mk, (w, mk) ∈ bitReversals → ∀ (a : Word) (s : State),
    ∃ (t : State) (y : BitVec w), exec (mk a) s = .next t ∧ Reversed (a.setWidth w) y ∧
      Answered s t ⟨0, false, y.setWidth 128, 0⟩ ∧ SameBuffer s t

/-- R108: reversing twice gives every pattern back. -/
def Obligations.BitReversalIsItsOwnInverse : Prop := ∀ (w : Nat) (x : BitVec w), bitRev (bitRev x) = x

/-! ## Round trips -/

/-- R85: after a successful encode at `off` whose bytes stay as written, a decode of the same width at `off` answers
`{OK, 0, v, enc_len(v)}`, in any buffer length that holds the encoding and under any build. -/
def Obligations.UnsignedRoundTrip : Prop :=
  ∀ w enc dec, (w, enc) ∈ unsignedEncodes → (w, dec) ∈ unsignedDecodes →
    ∀ (a : Word) (off len len' : Nat) (s t s' : State) (p : Response),
      exec (enc a off len) s = .next t → t.rsp = some p → p.status = 0 →
      off + wireLen (a.toNat % 2 ^ w) ≤ len' →
      (∀ x, off ≤ x → x < off + wireLen (a.toNat % 2 ^ w) → s'.buf.read x = t.buf.read x) →
      ∃ t', exec (dec off len') s' = .next t' ∧
        Answered s' t' ⟨0, false, BitVec.ofNat 128 (a.toNat % 2 ^ w), BitVec.ofNat 5 (wireLen (a.toNat % 2 ^ w))⟩

/-- R120: the same for the signed and the float codec: the decode answers the W-bit pattern that was encoded, bit for bit, and the length
of the mapped number. -/
def Obligations.CompositeRoundTrip : Prop :=
  (∀ w enc dec, (w, enc) ∈ signedEncodes → (w, dec) ∈ signedDecodes →
    ∀ (a : Word) (off len len' : Nat) (s t s' : State) (p : Response) (v : Nat),
      (v : Int) = zigzagNumber (a.setWidth w).toInt →
      exec (enc a off len) s = .next t → t.rsp = some p → p.status = 0 → off + wireLen v ≤ len' →
      (∀ x, off ≤ x → x < off + wireLen v → s'.buf.read x = t.buf.read x) →
      ∃ t', exec (dec off len') s' = .next t' ∧
        Answered s' t' ⟨0, false, BitVec.ofNat 128 (a.toNat % 2 ^ w), BitVec.ofNat 5 (wireLen v)⟩) ∧
  ∀ w enc dec, (w, enc) ∈ floatEncodes → (w, dec) ∈ floatDecodes →
    ∀ (a : Word) (off len len' : Nat) (s t s' : State) (p : Response) (u : BitVec w),
      Reversed (a.setWidth w) u →
      exec (enc a off len) s = .next t → t.rsp = some p → p.status = 0 → off + wireLen u.toNat ≤ len' →
      (∀ x, off ≤ x → x < off + wireLen u.toNat → s'.buf.read x = t.buf.read x) →
      ∃ t', exec (dec off len') s' = .next t' ∧
        Answered s' t' ⟨0, false, BitVec.ofNat 128 (a.toNat % 2 ^ w), BitVec.ofNat 5 (wireLen u.toNat)⟩

/-! ## Every request -/

/-- What R136 lets each family answer: an encode 0 or 1; a decode 0, 2 or 3, and 3 only with W < 128 under REJECT; a raw mapping 0; and
4 exactly for the illegal codes, so that 5 to 7 are never produced. -/
def Obligations.StatusesByFamily : Prop :=
  (∀ w mk, (w, mk) ∈ encodes → ∀ (a : Word) (off len : Nat) (s : State),
    ∃ t p, exec (mk a off len) s = .next t ∧ t.rsp = some p ∧ (p.status = 0 ∨ p.status = 1)) ∧
  (∀ w mk, (w, mk) ∈ decodes → ∀ (off len : Nat) (s : State),
    ∃ t p, exec (mk off len) s = .next t ∧ t.rsp = some p ∧
      (p.status = 0 ∨ p.status = 2 ∨ (p.status = 3 ∧ w < 128 ∧ s.build.widthPolicy = .reject))) ∧
  (∀ w mk, (w, mk) ∈ zigzagEncodes ++ zigzagDecodes ++ bitReversals → ∀ (a : Word) (s : State),
    ∃ t p, exec (mk a) s = .next t ∧ t.rsp = some p ∧ p.status = 0) ∧
  ∀ (r : Request) (s : State), ∃ t p, runRequest r s = .next t ∧ t.rsp = some p ∧ (p.status = 4 ↔ r.op.toNat ∉ legalCodes)

/-- What R142 says of the fields of every failure: no value, no truncation, and no count but ERR_WIDTH's. -/
def Obligations.FailuresCarryNoValue : Prop :=
  ∀ (r : Request) (s : State), ∃ t p, runRequest r s = .next t ∧ t.rsp = some p ∧
    (p.status ≠ 0 → p.r = 0 ∧ p.trunc = false ∧
      (p.status ≠ 3 → p.n = 0) ∧ (p.status = 3 → p.n = BitVec.ofNat 5 (lengthAt s r.off)))

/-- R145: a failure is only a response. The block is IDLE, the buffer is as it was, and nothing else changes. -/
def Obligations.FailuresArePrecise : Prop :=
  ∀ (r : Request) (s : State), ∃ t p, runRequest r s = .next t ∧ t.rsp = some p ∧
    (p.status ≠ 0 → Answered s t p ∧ SameBuffer s t)

/-- What R27 says, of the whole region: what a request is answered, and the bytes it leaves in its region, are a function of the request and of the bytes of its region,
and of nothing that stands in the state besides. -/
def Obligations.NoHiddenState : Prop :=
  ∀ (r : Request) (s s' : State), s.build = s'.build →
    (∀ x, r.off ≤ x → x < r.len → s.buf.read x = s'.buf.read x) →
    ∃ t t' p, runRequest r s = .next t ∧ runRequest r s' = .next t' ∧ t.rsp = some p ∧ t'.rsp = some p ∧
      ∀ x, r.off ≤ x → x < r.len → t.buf.read x = t'.buf.read x

/-- What R34 forbids a request to write: no byte below `off` or at or above `len` changes. -/
def Obligations.BytesOutsideTheRegionStay : Prop :=
  ∀ (r : Request) (s : State), ∃ t, runRequest r s = .next t ∧ ∀ x, x < r.off ∨ r.len ≤ x → t.buf.read x = s.buf.read x

/-- What R39 says of repeating a request: a decode is idempotent, and an encode repeated writes the same bytes and answers the same. -/
def Obligations.RepeatingChangesNothing : Prop :=
  ∀ (r : Request) (s : State), ∃ t u, runRequest r s = .next t ∧ runRequest r t = .next u ∧ u.rsp = t.rsp ∧ SameBuffer t u

/-- What R43 says of disjoint regions: two requests on them give the same answers and the same buffer in either order. -/
def Obligations.DisjointRequestsCommute : Prop :=
  ∀ (r r' : Request) (s : State), r.len ≤ r'.off ∨ r'.len ≤ r.off →
    ∃ t u t' u', runRequest r s = .next t ∧ runRequest r' t = .next u ∧ runRequest r' s = .next t' ∧ runRequest r t' = .next u' ∧
      SameBuffer u u' ∧ t.rsp = u'.rsp ∧ u.rsp = t'.rsp

/-! ## The machine -/

/-- The invariant holds right after reset (R29, R30; the empty buffer is the model's choice, log 2). -/
def Obligations.ResetMeetsTheInvariant : Prop := Inv State.reset

/-- Every step keeps the invariant: the buffer's canonical form (the model's, log 2), responses as R136 to R142 allow, and a port that
holds the last response or none (R21, R29). -/
def Obligations.StepKeepsTheInvariant : Prop := ∀ s t : State, Inv s → step s = .next t → Inv t

/-- R155: reset puts the block in IDLE with no request and no response, after which the buffer, the cursor and the build parameters are
as they were; the state right after power-on is IDLE too. -/
def Obligations.ResetClearsOnlyTheBlock : Prop :=
  (State.reset.trans = .idle ∧ State.reset.rsp = none) ∧
  ∀ (s : State) (ms : List HostMove), s.trans = .idle → s.inputs = .reset :: ms →
    ∃ t, step s = .next t ∧ t.trans = .idle ∧ t.rsp = none ∧ t.buf = s.buf ∧ t.cursor = s.cursor ∧ t.build = s.build ∧
      t.responses = s.responses ∧ t.inputs = ms

/-- R156: a request abandoned by reset gives no response; each byte keeps its old value or holds the value the request would have written,
bytes outside `[off, off + MAX_ENC_LEN(W))` and outside `[off, len)` keep theirs, and a decode leaves the buffer unchanged. -/
def Obligations.ResetAbandonsTheRequest : Prop :=
  ∀ (s : State) (r : Request) (es : List Intrusion), s.trans = .busy r → s.intrusions = .reset :: es →
    ∃ t u, step s = .next t ∧ runRequest r s = .next u ∧
      t.trans = .idle ∧ t.rsp = none ∧ t.responses = s.responses ∧ t.build = s.build ∧ t.cursor = s.cursor ∧ t.inputs = s.inputs ∧
      (∀ x, t.buf.read x = s.buf.read x ∨ t.buf.read x = u.buf.read x) ∧
      (∀ x, x < r.off ∨ r.len ≤ x → t.buf.read x = s.buf.read x) ∧
      (∀ i, decode r = .ok i → ∀ x, r.off + maxLenOf i.width ≤ x → t.buf.read x = s.buf.read x) ∧
      ∀ i, decode r = .ok i → i.form ≠ .memEnc → SameBuffer s t

/-- R30: reading the response port before any response since reset is a fault. -/
def Obligations.UnwrittenResponseFaults : Prop :=
  State.reset.rsp = none ∧
  ∀ (s : State) (ms : List HostMove), s.trans = .idle → s.inputs = .readResponse :: ms → s.rsp = none →
    step s = .fault .unwrittenResponse

/-- Races (R43, R152, R159; the model's reading is logs 6 and 7): a write or a read of a byte in the region of a BUSY request that uses the
buffer faults; an access anywhere else goes through, and so does every access while the BUSY request is a mapping or has an illegal code. -/
def Obligations.RacesFault : Prop :=
  ∀ (s : State) (r : Request) (addr : Nat) (b : Byte) (es : List Intrusion), s.trans = .busy r →
    (∀ i, decode r = .ok i → i.form ≠ .map → r.off ≤ addr → addr < r.len →
      (s.intrusions = .write addr b :: es → step s = .fault (.race addr)) ∧
      (s.intrusions = .read addr :: es → step s = .fault (.race addr))) ∧
    ((∃ e, decode r = .error e) ∨ (∃ i, decode r = .ok i ∧ (i.form = .map ∨ addr < r.off ∨ r.len ≤ addr)) →
      (s.intrusions = .write addr b :: es →
        ∃ t, step s = .next t ∧ t.trans = .busy r ∧ t.intrusions = es ∧ t.buf.read addr = b ∧
          (∀ x, x ≠ addr → t.buf.read x = s.buf.read x) ∧ t = { s with intrusions := es, buf := t.buf }) ∧
      (s.intrusions = .read addr :: es → step s = .next { s with intrusions := es }))

/-- What R28 says: the block accepts a request only when IDLE, one at a time, and returns to IDLE when it gives the response (that the
host's moves and the events during a request are lists is the model's choice, log 5; that the port keeps showing the last response while the
next request is BUSY is log 10). -/
def Obligations.OneRequestAtATime : Prop :=
  (∀ (s : State) (r : Request) (d : List Intrusion) (ms : List HostMove), s.trans = .idle → s.inputs = .request r d :: ms →
    step s = .next { s with trans := .busy r, intrusions := d, inputs := ms }) ∧
  ∀ (s t : State) (r : Request), s.trans = .busy r → step s = .next t →
    t.inputs = s.inputs ∧ (t.trans = .busy r ∨ t.trans = .idle) ∧
    (t.trans = .busy r → t.responses = s.responses) ∧
    (s.intrusions = [] → t.trans = .idle ∧ ∃ p, t.rsp = some p ∧ t.responses = s.responses ++ [p])

/-- What R161 asks of a model: an accepted request is answered exactly once, after as many steps as events come during it and one more, if none of them races
or resets (that the events are a list is the model's choice, log 5). -/
def Obligations.AcceptedRequestCompletes : Prop :=
  ∀ (s : State) (r : Request), s.trans = .busy r → (∀ e ∈ s.intrusions, Benign r e) →
    ∃ t : State, Host.Core.run core (s.intrusions.length + 1) s = .next t ∧ t.trans = .idle ∧
      ∃ p, t.rsp = some p ∧ t.responses = s.responses ++ [p]

/-- What R17, R42 and R162 say of requests issued one after another: two steps for each, the responses are in the order of the requests, each
the one `runRequest` gives for its request on the state the requests before it left, and the run then ends in the state the last one leaves
(that the requests stand in a list is the model's choice, log 5; when a run has ended is log 15). -/
def Obligations.EveryPresentedRequestIsAnswered : Prop :=
  ∀ (s : State) (rs : List Request), s.trans = .idle → s.inputs = programMoves rs →
    ∃ (t : State) (ps : List Response), Host.Core.run core (2 * rs.length) s = .next t ∧ Ended t ∧ ps.length = rs.length ∧
      t.responses = s.responses ++ ps ∧ t.build = s.build ∧ AnswersInOrder s rs ps t

/-- The cursor (R23, R160; that the model threads it at the response is log 11, and that the port keeps showing the
last response is log 10): after OK to an operation that uses the buffer it is
`off + n`, otherwise it does not move; a request at the cursor takes its `off` from it. -/
def Obligations.CursorIsThreaded : Prop :=
  (∀ (s : State) (r : Request) (i : Instr), s.trans = .busy r → s.intrusions = [] → decode r = .ok i →
    ∃ t p, step s = .next t ∧ t.rsp = some p ∧
      t.cursor = if p.status = 0 ∧ i.form ≠ .map then r.off + p.n.toNat else s.cursor) ∧
  (∀ (s : State) (op : BitVec 8) (a : Word) (len : Nat) (d : List Intrusion) (ms : List HostMove), s.trans = .idle →
    s.inputs = .requestAtCursor op a len d :: ms →
    step s = .next { s with trans := .busy ⟨op, a, s.cursor, len⟩, intrusions := d, inputs := ms }) ∧
  ∀ (s : State) (p : Response) (ms : List HostMove), s.trans = .idle → s.inputs = .skipFailed :: ms → s.rsp = some p → p.status ≠ 0 →
    step s = .next { s with cursor := s.cursor + p.n.toNat, inputs := ms }

/-- What R25 says of the build parameters: no step changes them. -/
def Obligations.BuildParametersNeverChange : Prop := ∀ s t : State, step s = .next t → t.build = s.build

/-- An IDLE block to which nothing is presented stays as it is (the model's choice, log 5). -/
def Obligations.IdleBlockWaits : Prop := ∀ s : State, s.trans = .idle → s.inputs = [] → step s = .next s

/-- What the host may do while the block is IDLE (R30, R149, R157 and 93_implementation_defined.md item 12; that the moves stand in a list
is log 5, and that the port still shows its response after it was read, so that a second read succeeds, is the model's choice, log 10): write one byte of its buffer, read one, set its cursor, read the port, which faults only on a status that is never given. -/
def Obligations.HostMovesGoThrough : Prop :=
  ∀ (s : State) (ms : List HostMove), s.trans = .idle →
    (∀ addr b, s.inputs = .writeByte addr b :: ms →
      ∃ t, step s = .next t ∧ t.trans = .idle ∧ t.inputs = ms ∧ t.rsp = s.rsp ∧ t.cursor = s.cursor ∧ t.buf.read addr = b ∧
        ∀ x, x ≠ addr → t.buf.read x = s.buf.read x) ∧
    (∀ addr, s.inputs = .readByte addr :: ms → step s = .next { s with inputs := ms }) ∧
    (∀ c, s.inputs = .setCursor c :: ms → step s = .next { s with cursor := c, inputs := ms }) ∧
    (∀ p, s.inputs = .readResponse :: ms → s.rsp = some p → p.status.toNat ≤ 4 → step s = .next { s with inputs := ms }) ∧
    ∀ p, s.inputs = .readResponse :: ms → s.rsp = some p → 4 < p.status.toNat → step s = .fault (.badStatus p.status)

/-- Part of R66: a decimal that stands for a signed operand is its W-bit two's complement pattern, one that stands for an unsigned operand is
its own number, one outside the operand's range is refused (the range is log 9), a negative one stands for no unsigned operand, and no
decimal at all stands for a float operand. -/
def Obligations.DecimalLiterals : Prop :=
  (∀ w, w ∈ [8, 16, 32, 64, 128] → ∀ (z : Int),
    (-2 ^ (w - 1) ≤ z → z < 2 ^ (w - 1) →
      ∃ a, Literal.pattern .signed w (.dec z) = .ok a ∧ a.toNat < 2 ^ w ∧ (a.setWidth w).toInt = z) ∧
    (z < -2 ^ (w - 1) ∨ 2 ^ (w - 1) ≤ z → Literal.pattern .signed w (.dec z) = .error .tooWide) ∧
    (0 ≤ z → z < 2 ^ w → ∃ a, Literal.pattern .unsigned w (.dec z) = .ok a ∧ (a.toNat : Int) = z) ∧
    (2 ^ w ≤ z → Literal.pattern .unsigned w (.dec z) = .error .tooWide)) ∧
  ∀ (w : Nat) (z : Int),
    (z < 0 → Literal.pattern .unsigned w (.dec z) = .error .negativeUnsigned) ∧
    Literal.pattern .float w (.dec z) = .error .decimalFloat

/-- What R66 says of a line whose operand is a hexadecimal pattern: the request it stands for, and that a pattern of more bits than the
operand has is refused; a raw line may hold any 8-bit code (the fields a form does not use and a raw line's 128-bit operand are log 14). -/
def Obligations.AssembledLineAsksForItsOperation : Prop :=
  (∀ (i : Instr) (off len n : Nat), i.form = .memEnc → n < 2 ^ i.width →
    (Line.memEnc i.mnemonic off (.hex n)).request len = .ok ⟨opcode i, BitVec.ofNat 128 n, off, len⟩) ∧
  (∀ (i : Instr) (off len : Nat), i.form = .memDec → (Line.memDec i.mnemonic off).request len = .ok ⟨opcode i, 0, off, len⟩) ∧
  (∀ (i : Instr) (len n : Nat), i.form = .map → n < 2 ^ i.width →
    (Line.map i.mnemonic (.hex n)).request len = .ok ⟨opcode i, BitVec.ofNat 128 n, 0, len⟩) ∧
  (∀ (i : Instr) (off len n : Nat), i.form = .memEnc → 2 ^ i.width ≤ n →
    (Line.memEnc i.mnemonic off (.hex n)).request len = .error (.literal .tooWide)) ∧
  (∀ (i : Instr) (len n : Nat), i.form = .map → 2 ^ i.width ≤ n →
    (Line.map i.mnemonic (.hex n)).request len = .error (.literal .tooWide)) ∧
  (∀ (op off len n : Nat), op < 256 → n < 2 ^ 128 →
    (Line.req op off (.hex n)).request len = .ok ⟨BitVec.ofNat 8 op, BitVec.ofNat 128 n, off, len⟩) ∧
  ∀ (op off len n : Nat), op < 256 → 2 ^ 128 ≤ n → (Line.req op off (.hex n)).request len = .error (.literal .tooWide)
end

