-- ==== Sys2Proof/Laws/Assembler.lean ====
section
/-! SUPPORT. What the program notation gives: the operation a mnemonic names, the pattern of a hexadecimal operand, and one step of a run. -/

namespace Sys2Proof.Machine

/-- An operation's mnemonic names an operation with its code, form and width, and with an operand unless the form has none (R62, R64). -/
theorem templateOf_mnemonic (i : Instr) :
    ∃ j, templateOf i.mnemonic = some j ∧ j.form = i.form ∧ j.width = i.width ∧ opcode j = opcode i ∧
      (i.form ≠ .memDec → j.operandKind ≠ .none) := by
  cases i <;> exact ⟨_, rfl, rfl, rfl, rfl, by simp [Instr.form, Instr.operandKind]⟩

/-- A hexadecimal pattern of at most W bits stands for itself (R66). -/
theorem pattern_hex_of_lt {k : OperandKind} (hk : k ≠ .none) {w n : Nat} (h : n < 2 ^ w) :
    Literal.pattern k w (.hex n) = .ok (BitVec.ofNat 128 n) := by
  cases k <;> simp_all [Literal.pattern]

/-- A hexadecimal pattern of more than W bits is refused (R66). -/
theorem pattern_hex_of_le {k : OperandKind} (hk : k ≠ .none) {w n : Nat} (h : 2 ^ w ≤ n) :
    Literal.pattern k w (.hex n) = .error .tooWide := by
  cases k <;> simp_all [Literal.pattern]

/-- A run goes on from the state its first step gives. -/
theorem run_succ_of_next (M : Host.Core) (n : Nat) (s t : M.State) (h : M.step s = .next t) : M.run (n + 1) s = M.run n t := by
  simp only [Host.Core.run, h]

end Sys2Proof.Machine
end

