-- ==== Sys2Proof/Laws/Mappings.lean ====
section
/-! SUPPORT. What the two mappings give, once: the number of a zigzag result (R92, R93) and the bits of a reversal (R107). -/

namespace Sys2Proof.Machine

/-- The low `k` bits of a reversal stay below `2^k`. -/
theorem revLow_lt {w} (x : BitVec w) (k) : revLow x k < 2^k := by
  induction k with
  | zero => simp [revLow]
  | succ k ih =>
    simp only [revLow, Nat.shiftLeft_eq, Nat.pow_succ]
    have : (x.getLsbD (w-1-k)).toNat ≤ 1 := Bool.toNat_le _
    have h2 : (x.getLsbD (w-1-k)).toNat * 2^k ≤ 1 * 2^k := Nat.mul_le_mul_right _ this
    omega

/-- Bit `j` of the low `k` bits of a reversal. -/
theorem testBit_revLow {w} (x : BitVec w) (k j) : (revLow x k).testBit j = (decide (j < k) && x.getLsbD (w-1-j)) := by
  induction k with
  | zero => simp [revLow]
  | succ k ih =>
    simp only [revLow, Nat.shiftLeft_eq]
    have hlt := revLow_lt x k
    rw [Nat.add_comm, Nat.mul_comm, Nat.two_pow_add_eq_or_of_lt hlt, Nat.testBit_or, ih, Nat.testBit_two_pow_mul]
    by_cases h1 : j < k
    · have : ¬ k ≤ j := by omega
      simp [h1, this]; omega
    · by_cases h2 : j = k
      · subst h2; simp
        cases x.getLsbD (w - 1 - j) <;> rfl
      · have h3 : k ≤ j := by omega
        have h4 : ¬ j < k + 1 := by omega
        have h5 : j - k ≠ 0 := by omega
        simp [h1, h3, h4]
        cases x.getLsbD (w - 1 - k)
        · simp
        · obtain ⟨m, hm⟩ := Nat.exists_eq_succ_of_ne_zero h5
          rw [hm]; simp [Nat.testBit_succ]

/-- Bit `j` of REV(W, x) is bit `W−1−j` of `x` (R107). -/
theorem getLsbD_bitRev {w} (x : BitVec w) (j) : (bitRev x).getLsbD j = (decide (j < w) && x.getLsbD (w-1-j)) := by
  simp only [bitRev, BitVec.getLsbD_ofNat, testBit_revLow]
  cases decide (j < w) <;> simp

/-- ZZ_ENC as a number, from the number of the pattern (R92). -/
theorem zzEnc_toNat {w} (x : BitVec w) (hw : 0 < w) :
    (zzEnc x).toNat = if x.toNat < 2^(w-1) then 2 * x.toNat else 2 * (2^w - 1 - x.toNat) + 1 := by
  have hp : 2^w = 2 * 2^(w-1) := by rw [← Nat.pow_succ']; congr 1; omega
  have hx := x.isLt
  have hmsb : x.getLsbD (w-1) = decide (2^(w-1) ≤ x.toNat) := by
    rw [← BitVec.msb_eq_getLsbD_last, BitVec.msb_eq_decide]
  unfold zzEnc
  rw [hmsb]
  by_cases h : x.toNat < 2^(w-1)
  · have h' : ¬ 2^(w-1) ≤ x.toNat := by omega
    simp only [h', decide_false, h, if_true, Bool.false_eq_true, if_false]
    simp [Nat.shiftLeft_eq]
    rw [Nat.mod_eq_of_lt (by omega)]; omega
  · have h' : 2^(w-1) ≤ x.toNat := by omega
    simp only [h', decide_true, if_true, h, if_false]
    rw [BitVec.xor_allOnes, BitVec.toNat_not]
    simp [Nat.shiftLeft_eq]
    rw [show x.toNat * 2 = 2^w + (2 * x.toNat - 2^w) by omega, Nat.add_mod_left, Nat.mod_eq_of_lt (by omega)]
    omega

/-- ZZ_DEC as a number, from the number of the code (R93). -/
theorem zzDec_toNat {w} (u : BitVec w) :
    (zzDec u).toNat = if u.toNat % 2 = 0 then u.toNat / 2 else 2^w - 1 - u.toNat / 2 := by
  have hu := u.isLt
  have hl : u.getLsbD 0 = decide (u.toNat % 2 = 1) := by
    rw [BitVec.getLsbD, Nat.testBit_zero]
  unfold zzDec
  rw [hl]
  by_cases h : u.toNat % 2 = 1
  · have h' : ¬ u.toNat % 2 = 0 := by omega
    simp only [h, decide_true, if_true]
    rw [if_neg (by omega), BitVec.xor_allOnes, BitVec.toNat_not]
    simp [Nat.shiftRight_eq_div_pow]
  · have h' : u.toNat % 2 = 0 := by omega
    simp only [h', if_true]
    simp [Nat.shiftRight_eq_div_pow]

/-- The operand of width W is the pattern modulo `2^W` (R22). -/
@[simp] theorem operand_toNat (w : Nat) (a : Word) : (operand w a).toNat = a.toNat % 2 ^ w := by
  simp [operand, BitVec.extractLsb'_toNat]

/-- The operand of width W is the truncated field (R22). -/
theorem operand_eq_setWidth (w : Nat) (a : Word) : operand w a = a.setWidth w := by
  apply BitVec.eq_of_toNat_eq; simp

/-- A result of width at most 128 keeps its number (R22). -/
theorem result_toNat {w : Nat} (y : BitVec w) (h : w ≤ 128) : (result y).toNat = y.toNat := by
  simp only [result, BitVec.toNat_setWidth]
  exact Nat.mod_eq_of_lt (Nat.lt_of_lt_of_le y.isLt (Nat.pow_le_pow_right (by omega) h))

end Sys2Proof.Machine
end

