-- ==== Sys2Proof/Laws/Memory.lean ====
section
/-! SUPPORT. The laws of the caller buffer: what a read gives after a write (R39), and that every operation keeps the canonical form. -/

namespace Sys2Proof.Machine

theorem Memory.read_filter_ne (m : Memory) (a x : Nat) :
    Memory.read (m.filter (fun c => c.1 != a)) x = if x = a then Memory.unlisted else Memory.read m x := by
  induction m with
  | nil => simp [Memory.read]
  | cons c m ih =>
    obtain ⟨k, b⟩ := c
    by_cases hk : k = a
    · subst hk
      have hf : List.filter (fun c : Host.Cell => c.1 != k) ((k, b) :: m) = List.filter (fun c => c.1 != k) m := by simp
      rw [hf, ih]
      by_cases hx : x = k
      · simp [hx]
      · have hx' : k ≠ x := fun h => hx h.symm
        simp [hx, hx', Memory.read]
    · have hf : List.filter (fun c : Host.Cell => c.1 != a) ((k, b) :: m) = (k, b) :: List.filter (fun c => c.1 != a) m := by simp [hk]
      rw [hf]
      simp only [Memory.read, ih]
      by_cases hx : k = x
      · subst hx; simp [hk]
      · simp [hx]

theorem Memory.read_insert (m : Memory) (a x : Nat) (b : Byte) (h : ∀ c ∈ m, c.1 ≠ a) :
    Memory.read (Memory.insert m a b) x = if x = a then b else Memory.read m x := by
  induction m with
  | nil => simp [Memory.read, Memory.insert, eq_comm]
  | cons c m ih =>
    obtain ⟨k, d⟩ := c
    have hk : k ≠ a := h (k, d) (by simp)
    have ih := ih (fun c hc => h c (by simp [hc]))
    simp only [Memory.insert]
    split
    · by_cases hx : x = a
      · simp [hx, Memory.read]
      · have hx' : a ≠ x := fun h => hx h.symm
        simp [hx, hx', Memory.read]
    · simp only [Memory.read, ih]
      by_cases hx : k = x
      · subst hx; simp [hk]
      · simp [hx]

/-- A read after a write gives the value written at that index and the old byte at every other (R39). It holds for any list of cells. -/
theorem Memory.read_write (m : Memory) (a x : Nat) (b : Byte) :
    Memory.read (Memory.write m a b) x = if x = a then b else Memory.read m x := by
  unfold Memory.write
  by_cases hb : b = Memory.unlisted
  · simp [hb, Memory.read_filter_ne]
  · simp only [hb, if_false]
    rw [Memory.read_insert _ _ _ _ (by simp), Memory.read_filter_ne]
    split <;> simp_all

@[simp] theorem Memory.read_write_same (m : Memory) (a : Nat) (b : Byte) : Memory.read (Memory.write m a b) a = b := by
  simp [Memory.read_write]

theorem Memory.read_write_other (m : Memory) (a x : Nat) (b : Byte) (h : x ≠ a) :
    Memory.read (Memory.write m a b) x = Memory.read m x := by simp [Memory.read_write, h]

/-- What a read gives after a run of writes: the byte written inside the run, the old byte outside. -/
theorem Memory.read_writeBytes (bs : List Byte) : ∀ (m : Memory) (a x : Nat),
    Memory.read (Memory.writeBytes m a bs) x = if a ≤ x then (bs[x - a]?).getD (Memory.read m x) else Memory.read m x := by
  induction bs with
  | nil => intro m a x; simp [Memory.writeBytes]
  | cons b bs ih =>
    intro m a x
    simp only [Memory.writeBytes, ih, Memory.read_write]
    rcases Nat.lt_trichotomy x a with h | h | h
    · have h1 : ¬ a ≤ x := by omega
      have h2 : ¬ a + 1 ≤ x := by omega
      have h3 : x ≠ a := by omega
      simp [h1, h2, h3]
    · subst h
      have h2 : ¬ x + 1 ≤ x := by omega
      simp
    · have h1 : a ≤ x := by omega
      have h2 : a + 1 ≤ x := by omega
      have h3 : x ≠ a := by omega
      have h4 : x - a = (x - (a + 1)) + 1 := by omega
      simp [h1, h2, h3, h4]

theorem Memory.read_writeBytes_outside (bs : List Byte) (m : Memory) (a x : Nat) (h : x < a ∨ a + bs.length ≤ x) :
    Memory.read (Memory.writeBytes m a bs) x = Memory.read m x := by
  rw [Memory.read_writeBytes]
  split
  · rw [List.getElem?_eq_none (by omega)]; rfl
  · rfl

theorem Memory.read_writeBytes_inside (bs : List Byte) (m : Memory) (a i : Nat) (h : i < bs.length) :
    Memory.read (Memory.writeBytes m a bs) (a + i) = bs[i] := by
  rw [Memory.read_writeBytes]
  simp [h]

@[simp] theorem Memory.readBytes_length (m : Memory) (a n : Nat) : (Memory.readBytes m a n).length = n := by
  induction n generalizing a with
  | zero => rfl
  | succ n ih => simp [Memory.readBytes, ih]

theorem Memory.readBytes_getElem (m : Memory) (a n i : Nat) (h : i < (Memory.readBytes m a n).length) :
    (Memory.readBytes m a n)[i] = Memory.read m (a + i) := by
  induction n generalizing a i with
  | zero => simp at h
  | succ n ih =>
    cases i with
    | zero => rfl
    | succ i => simp [Memory.readBytes, ih, Nat.add_assoc, Nat.add_comm 1]

/-- Reads depend only on the bytes they read. -/
theorem Memory.readBytes_congr (m m' : Memory) (a n : Nat) (h : ∀ x, a ≤ x → x < a + n → Memory.read m x = Memory.read m' x) :
    Memory.readBytes m a n = Memory.readBytes m' a n := by
  induction n generalizing a with
  | zero => rfl
  | succ n ih =>
    simp only [Memory.readBytes]
    rw [h a (by omega) (by omega), ih (a + 1) (fun x h1 h2 => h x (by omega) (by omega))]

/-- Reading back a run just written gives the run. -/
theorem Memory.readBytes_writeBytes (bs : List Byte) (m : Memory) (a : Nat) :
    Memory.readBytes (Memory.writeBytes m a bs) a bs.length = bs := by
  apply List.ext_getElem (by simp)
  intro i h1 h2
  rw [Memory.readBytes_getElem, Memory.read_writeBytes_inside]

/-- Each byte of an abandoned encode's range holds its old value or the byte the encode would have written (R156). -/
theorem Memory.read_writeSome (k : Nat) (bs : List Byte) : ∀ (m : Memory) (a i x : Nat),
    Memory.read (Memory.writeSome k m a i bs) x =
      if a ≤ x ∧ Config.abandonedWrite k (i + (x - a)) then (bs[x - a]?).getD (Memory.read m x) else Memory.read m x := by
  induction bs with
  | nil => intro m a i x; simp [Memory.writeSome]
  | cons b bs ih =>
    intro m a i x
    have hread : ∀ y, Memory.read (if Config.abandonedWrite k i = true then Memory.write m a b else m) y =
        if y = a ∧ Config.abandonedWrite k i = true then b else Memory.read m y := by
      intro y; split <;> simp_all [Memory.read_write]
    simp only [Memory.writeSome, ih, hread]
    rcases Nat.lt_trichotomy x a with h | h | h
    · have h1 : ¬ a ≤ x := by omega
      have h2 : ¬ a + 1 ≤ x := by omega
      have h3 : x ≠ a := by omega
      simp [h1, h2, h3]
    · subst h
      have h2 : ¬ x + 1 ≤ x := by omega
      simp
    · have h1 : a ≤ x := by omega
      have h2 : a + 1 ≤ x := by omega
      have h3 : x ≠ a := by omega
      have h4 : x - a = (x - (a + 1)) + 1 := by omega
      have h5 : i + 1 + (x - (a + 1)) = i + (x - a) := by omega
      rw [h5]
      simp [h1, h2, h3, h4]

/-! The canonical form. -/

theorem Memory.wf_cons (k : Nat) (b : Byte) (m : Memory) :
    Memory.wf ((k, b) :: m) = true ↔ b ≠ Memory.unlisted ∧ (∀ c ∈ m, k < c.1) ∧ Memory.wf m = true := by
  simp only [Memory.wf, Bool.and_eq_true, bne_iff_ne, ne_eq, List.all_eq_true, decide_eq_true_eq, and_assoc]

theorem Memory.wf_filter (m : Memory) (p : Host.Cell → Bool) (h : Memory.wf m = true) : Memory.wf (m.filter p) = true := by
  induction m with
  | nil => rfl
  | cons c m ih =>
    obtain ⟨k, b⟩ := c
    rw [Memory.wf_cons] at h
    rw [List.filter_cons]
    split
    · rw [Memory.wf_cons]
      exact ⟨h.1, fun c hc => h.2.1 c (List.mem_of_mem_filter hc), ih h.2.2⟩
    · exact ih h.2.2

theorem Memory.mem_insert (m : Memory) (a : Nat) (b : Byte) (c : Host.Cell) : c ∈ Memory.insert m a b ↔ c = (a, b) ∨ c ∈ m := by
  induction m with
  | nil => simp [Memory.insert]
  | cons d m ih =>
    obtain ⟨k, e⟩ := d
    simp only [Memory.insert]
    split
    · simp
    · simp only [List.mem_cons, ih]; tauto

theorem Memory.wf_insert (m : Memory) (a : Nat) (b : Byte) (hb : b ≠ Memory.unlisted) (hm : ∀ c ∈ m, c.1 ≠ a) (h : Memory.wf m = true) :
    Memory.wf (Memory.insert m a b) = true := by
  induction m with
  | nil => simp [Memory.insert, Memory.wf, hb]
  | cons c m ih =>
    obtain ⟨k, d⟩ := c
    have hk : k ≠ a := hm (k, d) (by simp)
    have h' := (Memory.wf_cons k d m).1 h
    simp only [Memory.insert]
    split
    · rename_i hlt
      rw [Memory.wf_cons]
      refine ⟨hb, ?_, h⟩
      intro c hc
      rcases List.mem_cons.1 hc with rfl | hc
      · exact hlt
      · exact Nat.lt_trans hlt (h'.2.1 c hc)
    · rename_i hlt
      rw [Memory.wf_cons]
      refine ⟨h'.1, ?_, ih (fun c hc => hm c (by simp [hc])) h'.2.2⟩
      intro c hc
      rcases (Memory.mem_insert m a b c).1 hc with rfl | hc
      · show k < a
        omega
      · exact h'.2.1 c hc

/-- A write keeps the canonical form. -/
theorem Memory.wf_write (m : Memory) (a : Nat) (b : Byte) (h : Memory.wf m = true) : Memory.wf (Memory.write m a b) = true := by
  unfold Memory.write
  have hf := Memory.wf_filter m (fun c => c.1 != a) h
  by_cases hb : b = Memory.unlisted
  · simp only [hb, if_true]; exact hf
  · simp only [hb, if_false]; exact Memory.wf_insert _ a b hb (by simp) hf

/-- A run of writes keeps the canonical form. -/
theorem Memory.wf_writeBytes (bs : List Byte) : ∀ (m : Memory) (a : Nat), Memory.wf m = true → Memory.wf (Memory.writeBytes m a bs) = true := by
  induction bs with
  | nil => intro m a h; exact h
  | cons b bs ih => intro m a h; exact ih _ _ (Memory.wf_write m a b h)

/-- The writes of an abandoned encode keep the canonical form. -/
theorem Memory.wf_writeSome (k : Nat) (bs : List Byte) : ∀ (m : Memory) (a i : Nat), Memory.wf m = true →
    Memory.wf (Memory.writeSome k m a i bs) = true := by
  induction bs with
  | nil => intro m a i h; exact h
  | cons b bs ih =>
    intro m a i h
    refine ih _ _ _ ?_
    split
    · exact Memory.wf_write m a b h
    · exact h

theorem Memory.read_of_all_gt (m : Memory) (x : Nat) (h : ∀ c ∈ m, x < c.1) : Memory.read m x = Memory.unlisted := by
  induction m with
  | nil => rfl
  | cons c m ih =>
    obtain ⟨k, b⟩ := c
    have hk : x < k := h (k, b) (by simp)
    have : k ≠ x := by omega
    simp only [Memory.read, this, if_false]
    exact ih (fun c hc => h c (by simp [hc]))

/-- Two buffers in canonical form that read the same at every index are equal. -/
theorem Memory.ext_of_wf : ∀ (m m' : Memory), Memory.wf m = true → Memory.wf m' = true →
    (∀ x, Memory.read m x = Memory.read m' x) → m = m' := by
  intro m
  induction m with
  | nil =>
    intro m' _ h' heq
    cases m' with
    | nil => rfl
    | cons c m' =>
      obtain ⟨k, b⟩ := c
      have := heq k
      rw [Memory.wf_cons] at h'
      simp [Memory.read] at this
      exact absurd this.symm h'.1
  | cons c m ih =>
    obtain ⟨k, b⟩ := c
    intro m' h h' heq
    have hw := (Memory.wf_cons k b m).1 h
    cases m' with
    | nil =>
      have := heq k
      simp [Memory.read] at this
      exact absurd this hw.1
    | cons c' m' =>
      obtain ⟨k', b'⟩ := c'
      have hw' := (Memory.wf_cons k' b' m').1 h'
      have hkk : k = k' := by
        rcases Nat.lt_trichotomy k k' with hlt | heq' | hgt
        · have h1 := heq k
          have h2 : Memory.read ((k', b') :: m') k = Memory.unlisted := by
            apply Memory.read_of_all_gt
            intro c hc
            rcases List.mem_cons.1 hc with rfl | hc
            · exact hlt
            · exact Nat.lt_trans hlt (hw'.2.1 c hc)
          rw [h2] at h1
          simp [Memory.read] at h1
          exact absurd h1 hw.1
        · exact heq'
        · have h1 := heq k'
          have h2 : Memory.read ((k, b) :: m) k' = Memory.unlisted := by
            apply Memory.read_of_all_gt
            intro c hc
            rcases List.mem_cons.1 hc with rfl | hc
            · exact hgt
            · exact Nat.lt_trans hgt (hw.2.1 c hc)
          rw [h2] at h1
          simp [Memory.read] at h1
          exact absurd h1.symm hw'.1
      subst hkk
      have hb : b = b' := by have := heq k; simpa [Memory.read] using this
      subst hb
      rw [ih m' hw.2.2 hw'.2.2 ?_]
      intro x
      by_cases hx : k = x
      · subst hx
        rw [Memory.read_of_all_gt m k hw.2.1, Memory.read_of_all_gt m' k hw'.2.1]
      · have := heq x
        simpa [Memory.read, hx] using this

end Sys2Proof.Machine
end

