-- ==== Sys2Proof/Laws/State.lean ====
section
/-! SUPPORT. One lemma per field for each update of State, so that no later proof unfolds a record update. -/

namespace Sys2Proof.Machine

/-! Giving a response. -/

@[simp] theorem State.respond_trans (s : State) (r : Response) : (s.respond r).trans = .idle := rfl
@[simp] theorem State.respond_rsp (s : State) (r : Response) : (s.respond r).rsp = some r := rfl
@[simp] theorem State.respond_build (s : State) (r : Response) : (s.respond r).build = s.build := rfl
@[simp] theorem State.respond_buf (s : State) (r : Response) : (s.respond r).buf = s.buf := rfl
@[simp] theorem State.respond_cursor (s : State) (r : Response) : (s.respond r).cursor = s.cursor := rfl
@[simp] theorem State.respond_responses (s : State) (r : Response) : (s.respond r).responses = s.responses ++ [r] := rfl
@[simp] theorem State.respond_inputs (s : State) (r : Response) : (s.respond r).inputs = s.inputs := rfl
@[simp] theorem State.respond_intrusions (s : State) (r : Response) : (s.respond r).intrusions = s.intrusions := rfl
@[simp] theorem State.respond_abandoned (s : State) (r : Response) : (s.respond r).abandoned = s.abandoned := rfl

/-! Raising a failure. -/

@[simp] theorem State.raise_trans (s : State) (f : Failure) : (s.raise f).trans = .idle := rfl
@[simp] theorem State.raise_rsp (s : State) (f : Failure) : (s.raise f).rsp = some f.response := rfl
@[simp] theorem State.raise_build (s : State) (f : Failure) : (s.raise f).build = s.build := rfl
@[simp] theorem State.raise_buf (s : State) (f : Failure) : (s.raise f).buf = s.buf := rfl
@[simp] theorem State.raise_cursor (s : State) (f : Failure) : (s.raise f).cursor = s.cursor := rfl
@[simp] theorem State.raise_responses (s : State) (f : Failure) : (s.raise f).responses = s.responses ++ [f.response] := rfl
@[simp] theorem State.raise_inputs (s : State) (f : Failure) : (s.raise f).inputs = s.inputs := rfl
@[simp] theorem State.raise_intrusions (s : State) (f : Failure) : (s.raise f).intrusions = s.intrusions := rfl
@[simp] theorem State.raise_abandoned (s : State) (f : Failure) : (s.raise f).abandoned = s.abandoned := rfl

/-! Reset. -/

@[simp] theorem State.resetBlock_trans (s : State) : (s.resetBlock).trans = .idle := rfl
@[simp] theorem State.resetBlock_rsp (s : State) : (s.resetBlock).rsp = none := rfl
@[simp] theorem State.resetBlock_build (s : State) : (s.resetBlock).build = s.build := rfl
@[simp] theorem State.resetBlock_buf (s : State) : (s.resetBlock).buf = s.buf := rfl
@[simp] theorem State.resetBlock_cursor (s : State) : (s.resetBlock).cursor = s.cursor := rfl
@[simp] theorem State.resetBlock_responses (s : State) : (s.resetBlock).responses = s.responses := rfl
@[simp] theorem State.resetBlock_inputs (s : State) : (s.resetBlock).inputs = s.inputs := rfl
@[simp] theorem State.resetBlock_intrusions (s : State) : (s.resetBlock).intrusions = [] := rfl
@[simp] theorem State.resetBlock_abandoned (s : State) : (s.resetBlock).abandoned = s.abandoned := rfl

/-! Accepting a request. -/

@[simp] theorem State.accept_trans (s : State) (r : Request) (d : List Intrusion) : (s.accept r d).trans = .busy r := rfl
@[simp] theorem State.accept_rsp (s : State) (r : Request) (d : List Intrusion) : (s.accept r d).rsp = s.rsp := rfl
@[simp] theorem State.accept_build (s : State) (r : Request) (d : List Intrusion) : (s.accept r d).build = s.build := rfl
@[simp] theorem State.accept_buf (s : State) (r : Request) (d : List Intrusion) : (s.accept r d).buf = s.buf := rfl
@[simp] theorem State.accept_cursor (s : State) (r : Request) (d : List Intrusion) : (s.accept r d).cursor = s.cursor := rfl
@[simp] theorem State.accept_responses (s : State) (r : Request) (d : List Intrusion) : (s.accept r d).responses = s.responses := rfl
@[simp] theorem State.accept_inputs (s : State) (r : Request) (d : List Intrusion) : (s.accept r d).inputs = s.inputs := rfl
@[simp] theorem State.accept_intrusions (s : State) (r : Request) (d : List Intrusion) : (s.accept r d).intrusions = d := rfl
@[simp] theorem State.accept_abandoned (s : State) (r : Request) (d : List Intrusion) : (s.accept r d).abandoned = s.abandoned := rfl

/-! The writes of an abandoned encode. -/

@[simp] theorem State.partialEncode_trans (s : State) (j : EncodeJob) : (s.partialEncode j).trans = s.trans := rfl
@[simp] theorem State.partialEncode_rsp (s : State) (j : EncodeJob) : (s.partialEncode j).rsp = s.rsp := rfl
@[simp] theorem State.partialEncode_build (s : State) (j : EncodeJob) : (s.partialEncode j).build = s.build := rfl
@[simp] theorem State.partialEncode_buf (s : State) (j : EncodeJob) : (s.partialEncode j).buf = Memory.writeSome s.abandoned s.buf j.off 0 (plannedBytes s.build j) := rfl
@[simp] theorem State.partialEncode_cursor (s : State) (j : EncodeJob) : (s.partialEncode j).cursor = s.cursor := rfl
@[simp] theorem State.partialEncode_responses (s : State) (j : EncodeJob) : (s.partialEncode j).responses = s.responses := rfl
@[simp] theorem State.partialEncode_inputs (s : State) (j : EncodeJob) : (s.partialEncode j).inputs = s.inputs := rfl
@[simp] theorem State.partialEncode_intrusions (s : State) (j : EncodeJob) : (s.partialEncode j).intrusions = s.intrusions := rfl
@[simp] theorem State.partialEncode_abandoned (s : State) (j : EncodeJob) : (s.partialEncode j).abandoned = s.abandoned + 1 := rfl

/-! Placing an instruction for the host's checks. -/

@[simp] theorem State.withFetchWord_trans (s : State) (nbits w : Nat) : (s.withFetchWord nbits w).trans = .busy (requestOfBits nbits w) := rfl
@[simp] theorem State.withFetchWord_rsp (s : State) (nbits w : Nat) : (s.withFetchWord nbits w).rsp = s.rsp := rfl
@[simp] theorem State.withFetchWord_build (s : State) (nbits w : Nat) : (s.withFetchWord nbits w).build = s.build := rfl
@[simp] theorem State.withFetchWord_buf (s : State) (nbits w : Nat) : (s.withFetchWord nbits w).buf = s.buf := rfl
@[simp] theorem State.withFetchWord_cursor (s : State) (nbits w : Nat) : (s.withFetchWord nbits w).cursor = s.cursor := rfl
@[simp] theorem State.withFetchWord_responses (s : State) (nbits w : Nat) : (s.withFetchWord nbits w).responses = s.responses := rfl
@[simp] theorem State.withFetchWord_inputs (s : State) (nbits w : Nat) : (s.withFetchWord nbits w).inputs = s.inputs := rfl
@[simp] theorem State.withFetchWord_intrusions (s : State) (nbits w : Nat) : (s.withFetchWord nbits w).intrusions = [] := rfl
@[simp] theorem State.withFetchWord_abandoned (s : State) (nbits w : Nat) : (s.withFetchWord nbits w).abandoned = s.abandoned := rfl

/-! Threading the cursor changes the cursor and nothing else. -/

@[simp] theorem State.threadCursor_trans (s : State) (i : Instr) (r : Request) : (s.threadCursor i r).trans = s.trans := by
  unfold State.threadCursor; split <;> (try split) <;> rfl
@[simp] theorem State.threadCursor_rsp (s : State) (i : Instr) (r : Request) : (s.threadCursor i r).rsp = s.rsp := by
  unfold State.threadCursor; split <;> (try split) <;> rfl
@[simp] theorem State.threadCursor_build (s : State) (i : Instr) (r : Request) : (s.threadCursor i r).build = s.build := by
  unfold State.threadCursor; split <;> (try split) <;> rfl
@[simp] theorem State.threadCursor_buf (s : State) (i : Instr) (r : Request) : (s.threadCursor i r).buf = s.buf := by
  unfold State.threadCursor; split <;> (try split) <;> rfl
@[simp] theorem State.threadCursor_responses (s : State) (i : Instr) (r : Request) : (s.threadCursor i r).responses = s.responses := by
  unfold State.threadCursor; split <;> (try split) <;> rfl
@[simp] theorem State.threadCursor_inputs (s : State) (i : Instr) (r : Request) : (s.threadCursor i r).inputs = s.inputs := by
  unfold State.threadCursor; split <;> (try split) <;> rfl
@[simp] theorem State.threadCursor_intrusions (s : State) (i : Instr) (r : Request) : (s.threadCursor i r).intrusions = s.intrusions := by
  unfold State.threadCursor; split <;> (try split) <;> rfl
@[simp] theorem State.threadCursor_abandoned (s : State) (i : Instr) (r : Request) : (s.threadCursor i r).abandoned = s.abandoned := by
  unfold State.threadCursor; split <;> (try split) <;> rfl

theorem State.threadCursor_cursor (s : State) (i : Instr) (r : Request) (p : Response) (h : s.rsp = some p) :
    (s.threadCursor i r).cursor = if p.status = statusOk ∧ i.form ≠ .map then r.off + p.n.toNat else s.cursor := by
  simp only [State.threadCursor, h]
  split <;> rfl

/-! The fields of the responses (R137 to R142). -/

@[simp] theorem okResponse_status (t : Bool) (r : Word) (n : Nat) : (okResponse t r n).status = statusOk := rfl
@[simp] theorem okResponse_trunc (t : Bool) (r : Word) (n : Nat) : (okResponse t r n).trunc = t := rfl
@[simp] theorem okResponse_r (t : Bool) (r : Word) (n : Nat) : (okResponse t r n).r = r := rfl
@[simp] theorem okResponse_n (t : Bool) (r : Word) (n : Nat) : (okResponse t r n).n = BitVec.ofNat 5 n := rfl
@[simp] theorem Failure.response_r (f : Failure) : f.response.r = 0 := by cases f <;> rfl
@[simp] theorem Failure.response_trunc (f : Failure) : f.response.trunc = false := by cases f <;> rfl

end Sys2Proof.Machine
end

