-- ==== Sys2Proof/Laws/Wire.lean ====
section
/-! SUPPORT. The laws of the wire format: little-endian numbers, the shapes in arithmetic form, lengths, and the canonical encoding byte
by byte. -/

namespace Sys2Proof.Machine

open Sys2Proof.Safety

/-! ## Little-endian bytes and numbers -/

@[simp] theorem leBytes_length (n s : Nat) : (leBytes n s).length = n := by
  induction n generalizing s with
  | zero => rfl
  | succ n ih => simp [leBytes, ih]

theorem leValue_cons (b : Byte) (bs : List Byte) : leValue (b :: bs) = b.toNat + leValue bs * 256 := by
  simp [leValue, Nat.shiftLeft_eq]

theorem leValue_lt (bs : List Byte) : leValue bs < 256 ^ bs.length := by
  induction bs with
  | nil => simp [leValue]
  | cons b bs ih =>
    have hb : b.toNat < 256 := b.isLt
    rw [leValue_cons, List.length_cons, Nat.pow_succ]
    omega

theorem ofNat_and_255_toNat (s : Nat) : (BitVec.ofNat 8 (s &&& 0xFF)).toNat = s % 256 := by
  have : s &&& 0xFF = s % 256 := Nat.and_two_pow_sub_one_eq_mod s 8
  rw [this, BitVec.toNat_ofNat]
  omega

/-- Byte `i` of the little-endian bytes of `s`. -/
theorem leBytes_getElem (n s i : Nat) (h : i < (leBytes n s).length) : (leBytes n s)[i].toNat = s / 256 ^ i % 256 := by
  induction n generalizing s i with
  | zero => simp at h
  | succ n ih =>
    cases i with
    | zero => simp only [leBytes, List.getElem_cons_zero, ofNat_and_255_toNat, Nat.pow_zero, Nat.div_one]
    | succ i =>
      have h' : i < (leBytes n (s >>> 8)).length := by simpa [leBytes] using h
      simp only [leBytes, List.getElem_cons_succ]
      rw [ih _ _ h', Nat.shiftRight_eq_div_pow, Nat.div_div_eq_div_mul, show 2 ^ 8 * 256 ^ i = 256 ^ (i + 1) by ring]

/-- The little-endian bytes of `s` read back as `s mod 256^n`. -/
theorem leValue_leBytes (n s : Nat) : leValue (leBytes n s) = s % 256 ^ n := by
  induction n generalizing s with
  | zero => simp [leBytes, leValue, Nat.mod_one]
  | succ n ih =>
    simp only [leBytes]
    rw [leValue_cons, ofNat_and_255_toNat, ih, Nat.shiftRight_eq_div_pow, show 256 ^ (n + 1) = 2 ^ 8 * 256 ^ n by ring, Nat.mod_mul]
    omega

/-- The little-endian number of a list of bytes, as the sum of R53. -/
theorem leValue_eq_payloadSum (bs : List Byte) (f : Nat → Nat)
    (hf : ∀ i (h : i < bs.length), f (i + 1) = bs[i].toNat) : leValue bs = payloadSum f bs.length := by
  induction bs generalizing f with
  | nil => simp [leValue, payloadSum]
  | cons b bs ih =>
    have h0 := hf 0 (by simp)
    have ih := ih (fun i => f (i + 1)) (fun i h => by have := hf (i + 1) (by simpa using h); simpa using this)
    rw [leValue_cons, ih]
    simp only [payloadSum, List.length_cons, List.range_succ_eq_map, List.map_cons, List.sum_cons, List.map_map]
    rw [h0, ← List.sum_map_mul_right]
    simp [Function.comp_def, Nat.pow_succ, Nat.mul_assoc]

/-! ## Shapes and lengths -/

/-- The classification of byte 0 by comparisons (R52). -/
theorem classify_eq (b : Byte) : classify b =
    if b.toNat < 0x80 then .small else if b.toNat < 0xC0 then .medium 2 else if b.toNat < 0xE0 then .medium 3
    else if b.toNat < 0xF0 then .medium 4 else .large (b.toNat - 0xF0 + 1) := by
  revert b; decide +kernel

/-- `enc_total_len` by comparisons (R52). -/
theorem encTotalLen_eq (b : Byte) : encTotalLen b = prefixLen b.toNat := by
  unfold encTotalLen prefixLen
  rw [classify_eq]
  split_ifs <;> rfl

theorem prefixLen_pos (n : Nat) : 1 ≤ prefixLen n := by unfold prefixLen; split_ifs <;> omega

theorem prefixLen_le (b : Byte) : prefixLen b.toNat ≤ 17 := by
  have : b.toNat < 256 := b.isLt
  unfold prefixLen; split_ifs <;> omega

/-- The digits of `v` in base 256: `v` lies below that power of 256, and at or above the power before it. -/
theorem byteCount_bounds (fuel v : Nat) (h : v < 256 ^ fuel) :
    v < 256 ^ byteCount fuel v ∧ (v ≠ 0 → 1 ≤ byteCount fuel v ∧ 256 ^ (byteCount fuel v - 1) ≤ v) := by
  induction fuel generalizing v with
  | zero => simp [byteCount] at *; omega
  | succ fuel ih =>
    unfold byteCount
    split
    · subst v; simp
    · rename_i hv
      have hd : v / 256 < 256 ^ fuel := by rw [Nat.pow_succ] at h; omega
      obtain ⟨h1, h2⟩ := ih _ hd
      refine ⟨by rw [Nat.pow_succ]; omega, fun _ => ⟨by omega, ?_⟩⟩
      rw [Nat.add_sub_cancel]
      by_cases h0 : v / 256 = 0
      · have : byteCount fuel (v / 256) = 0 := by rw [h0]; cases fuel <;> simp [byteCount]
        rw [this]; omega
      · obtain ⟨h3, h4⟩ := h2 h0
        have : 256 ^ byteCount fuel (v / 256) = 256 ^ (byteCount fuel (v / 256) - 1) * 256 := by
          rw [← Nat.pow_succ]; congr 1; omega
        omega

theorem byteCount_le (fuel v : Nat) : byteCount fuel v ≤ fuel := by
  induction fuel generalizing v with
  | zero => simp [byteCount]
  | succ fuel ih =>
    unfold byteCount
    have := ih (v / 256)
    split <;> omega

theorem byteCount_mono (fuel u v : Nat) (h : u ≤ v) : byteCount fuel u ≤ byteCount fuel v := by
  induction fuel generalizing u v with
  | zero => simp [byteCount]
  | succ fuel ih =>
    have := ih (u / 256) (v / 256) (Nat.div_le_div_right h)
    unfold byteCount
    split <;> split <;> omega

theorem two_pow_eight_mul (n : Nat) : 2 ^ (8 * n) = 256 ^ n := by rw [Nat.pow_mul]

theorem wireLen_small (v : Nat) (h : v < 2 ^ 7) : wireLen v = 1 := by unfold wireLen; rw [if_pos h]

theorem wireLen_medium (v : Nat) (h : v < 2 ^ 28) (h7 : 2 ^ 7 ≤ v) :
    wireLen v = if v < 2 ^ 14 then 2 else if v < 2 ^ 21 then 3 else 4 := by
  unfold wireLen; rw [if_neg (by omega), if_pos h]

theorem wireLen_large (v : Nat) (h : 2 ^ 28 ≤ v) : wireLen v = 1 + byteCount 16 v := by
  unfold wireLen
  rw [if_neg (by omega), if_neg (by omega), if_neg (by omega), if_neg (by omega)]

/-- The bounds of `N = wireLen v − 1` for a value of the large form (R56, R57). -/
theorem wireLen_large_bounds (v : Nat) (h28 : 2 ^ 28 ≤ v) (h : v < 2 ^ 128) :
    5 ≤ wireLen v ∧ wireLen v ≤ 17 ∧ 2 ^ (8 * (wireLen v - 1 - 1)) ≤ v ∧ v < 2 ^ (8 * (wireLen v - 1)) := by
  rw [wireLen_large v h28]
  obtain ⟨h1, h2⟩ := byteCount_bounds 16 v (by rw [← two_pow_eight_mul]; exact h)
  obtain ⟨h3, h4⟩ := h2 (by omega)
  have hle := byteCount_le 16 v
  have hge : 4 ≤ byteCount 16 v := by
    by_contra hc
    have : 256 ^ byteCount 16 v ≤ 256 ^ 3 := Nat.pow_le_pow_right (by decide) (by omega)
    omega
  rw [Nat.add_sub_cancel_left, two_pow_eight_mul, two_pow_eight_mul]
  exact ⟨by omega, by omega, h4, h1⟩

theorem wireLen_medium_bounds (v : Nat) (h7 : 2 ^ 7 ≤ v) (h28 : v < 2 ^ 28) :
    2 ≤ wireLen v ∧ wireLen v ≤ 4 ∧ v < 2 ^ (7 * wireLen v) := by
  rw [wireLen_medium v h28 h7]
  split_ifs <;> exact ⟨by decide, by decide, by omega⟩

theorem wireLen_pos (v : Nat) : 1 ≤ wireLen v := by
  unfold wireLen; split_ifs <;> omega

theorem wireLen_le (v : Nat) : wireLen v ≤ 17 := by
  have := byteCount_le 16 v
  unfold wireLen; split_ifs <;> omega

/-- The canonical length never decreases (R57, R73). -/
theorem wireLen_mono (u v : Nat) (h : u ≤ v) : wireLen u ≤ wireLen v := by
  by_cases hv : v < 2 ^ 28
  · unfold wireLen; split_ifs <;> omega
  · rw [wireLen_large v (by omega)]
    by_cases hu : u < 2 ^ 28
    · have h1 := byteCount_mono 16 (2 ^ 28) v (by omega)
      have h2 : byteCount 16 (2 ^ 28) = 4 := by decide
      unfold wireLen; split_ifs <;> omega
    · rw [wireLen_large u (by omega)]
      have := byteCount_mono 16 u v h
      omega

/-- `L` of R56, row by row. -/
theorem mediumLen_eq (v : Nat) (h : v < 2 ^ 28) : mediumLen v = if v < 2 ^ 14 then 2 else if v < 2 ^ 21 then 3 else 4 := by
  unfold mediumLen
  simp only [List.find?_cons, Nat.reduceMul]
  by_cases h1 : v < 2 ^ 14
  · rw [decide_eq_true h1, if_pos h1]; rfl
  · rw [decide_eq_false h1, if_neg h1]
    by_cases h2 : v < 2 ^ 21
    · rw [decide_eq_true h2, if_pos h2]; rfl
    · rw [decide_eq_false h2, if_neg h2, decide_eq_true h]; rfl

/-- Between consecutive powers of 256 `N` of R56 is the upper exponent. -/
theorem largeCount_eq (v n : Nat) (hn : 1 ≤ n) (hn' : n ≤ 16) (hlo : 2 ^ (8 * (n - 1)) ≤ v) (hhi : v < 2 ^ (8 * n)) : largeCount v = n := by
  unfold largeCount
  have hfind : (List.range' 1 16).find? (fun k => decide (v < 2 ^ (8 * k))) = some n := by
    rw [List.find?_eq_some_iff_append]
    refine ⟨by simpa using hhi, List.range' 1 (n - 1), List.range' (n + 1) (16 - n), ?_, ?_⟩
    · have h1 : n :: List.range' (n + 1) (16 - n) = List.range' n (17 - n) := by
        rw [show 17 - n = (16 - n) + 1 by omega, List.range'_succ]
      have h2 := List.range'_append_1 (s := 1) (m := n - 1) (n := 17 - n)
      rw [show 1 + (n - 1) = n by omega, show n - 1 + (17 - n) = 16 by omega] at h2
      rw [h1]
      exact h2.symm
    · intro k hk
      have hk' := List.mem_range'_1.1 hk
      have : 2 ^ (8 * k) ≤ 2 ^ (8 * (n - 1)) := Nat.pow_le_pow_right (by decide) (by omega)
      simp; omega
  rw [hfind]; rfl

theorem largeCount_eq_wireLen (v : Nat) (h28 : 2 ^ 28 ≤ v) (h : v < 2 ^ 128) : largeCount v = wireLen v - 1 := by
  obtain ⟨h1, h2, h3, h4⟩ := wireLen_large_bounds v h28 h
  exact largeCount_eq v _ (by omega) (by omega) h3 h4

theorem mediumLen_eq_wireLen (v : Nat) (h7 : 2 ^ 7 ≤ v) (h : v < 2 ^ 28) : mediumLen v = wireLen v := by
  rw [mediumLen_eq v h, wireLen_medium v h h7]

theorem bitlen_bounds (v : Nat) (h : v ≠ 0) : 2 ^ (bitlen v - 1) ≤ v ∧ v < 2 ^ bitlen v := by
  unfold bitlen
  simp only [h, if_false]
  exact ⟨by simpa using Nat.log2_self_le h, Nat.lt_log2_self⟩

/-- The canonical length has the rows of R57. -/
theorem encLen_eq_wireLen (v : Nat) (h : v < 2 ^ 128) : encLen v = wireLen v := by
  by_cases h28 : v < 2 ^ 28
  · unfold encLen wireLen; split_ifs <;> rfl
  · obtain ⟨h1, h2, h3, h4⟩ := wireLen_large_bounds v (by omega) h
    have hb := bitlen_bounds v (by omega)
    have e : encLen v = 1 + (bitlen v + 7) / 8 := by
      unfold encLen
      rw [if_neg (by omega), if_neg (by omega), if_neg (by omega), if_neg (by omega)]
    have hle : bitlen v - 1 < 8 * (wireLen v - 1) :=
      (Nat.pow_lt_pow_iff_right (a := 2) (by decide)).1 (Nat.lt_of_le_of_lt hb.1 h4)
    have hge : 8 * (wireLen v - 1 - 1) < bitlen v :=
      (Nat.pow_lt_pow_iff_right (a := 2) (by decide)).1 (Nat.lt_of_le_of_lt h3 hb.2)
    rw [e]; omega

/-- The canonical encoding is as long as the table of R57 says. -/
theorem canonicalBytes_length (v : Nat) (h : v < 2 ^ 128) : (canonicalBytes v).length = wireLen v := by
  unfold canonicalBytes
  split_ifs with h1 h2
  · rw [wireLen_small v h1]; rfl
  · rw [mediumLen_eq_wireLen v (by omega) h2]
    have := wireLen_pos v
    simp only [mediumBytes, List.length_cons, leBytes_length]; omega
  · rw [largeCount_eq_wireLen v (by omega) h]
    have := (wireLen_large_bounds v (by omega) h).1
    simp only [largeBytes, List.length_cons, leBytes_length]; omega

/-! ## The canonical encoding read back -/

/-- Byte 0 of the medium form as a number (R50). -/
theorem mediumHead_toNat (l v : Nat) (h2 : 2 ≤ l) (h4 : l ≤ 4) :
    (BitVec.ofNat 8 ((((2 ^ (l - 1) - 1) <<< 1) <<< (8 - l)) ||| low v (8 - l))).toNat = 256 - 2 ^ (9 - l) + v % 2 ^ (8 - l) := by
  have key : ∀ k x : Nat, x < 2 ^ k → ∀ c, (c <<< k ||| x) = c * 2 ^ k + x := by
    intro k x hx c
    rw [Nat.shiftLeft_eq, Nat.mul_comm, Nat.two_pow_add_eq_or_of_lt hx]
  have hx : low v (8 - l) < 2 ^ (8 - l) := Nat.mod_lt _ (Nat.two_pow_pos _)
  rw [key _ _ hx, BitVec.toNat_ofNat]
  unfold low at *
  interval_cases l <;> simp only [Nat.reduceSub, Nat.reducePow, Nat.reduceShiftLeft, Nat.reduceMul] at * <;> omega

/-- Byte 0 of the large form as a number (R51). -/
theorem largeHead_toNat (n : Nat) (h1 : 1 ≤ n) (h16 : n ≤ 16) : (BitVec.ofNat 8 (0xF0 ||| (n - 1))).toNat = 0xF0 + (n - 1) := by
  interval_cases n <;> rfl

/-- The medium form read back (R50, R52, R53). -/
theorem mediumBytes_reads_back (l v : Nat) (h2 : 2 ≤ l) (h4 : l ≤ 4) (hv : v < 2 ^ (7 * l)) :
    ∃ (b0 : Byte) (rest : List Byte), mediumBytes l v = b0 :: rest ∧ rest.length + 1 = encTotalLen b0 ∧ carried (classify b0) b0 rest = v := by
  refine ⟨_, _, rfl, ?_, ?_⟩
  · rw [leBytes_length, encTotalLen_eq, mediumHead_toNat l v h2 h4]
    have : v % 2 ^ (8 - l) < 2 ^ (8 - l) := Nat.mod_lt _ (Nat.two_pow_pos _)
    unfold prefixLen
    interval_cases l <;> simp only [Nat.reduceSub, Nat.reducePow] at * <;> split_ifs <;> omega
  · have hh := mediumHead_toNat l v h2 h4
    have hlt : v % 2 ^ (8 - l) < 2 ^ (8 - l) := Nat.mod_lt _ (Nat.two_pow_pos _)
    have hc : classify (BitVec.ofNat 8 ((((2 ^ (l - 1) - 1) <<< 1) <<< (8 - l)) ||| low v (8 - l))) = .medium l := by
      rw [classify_eq, hh]
      interval_cases l <;> simp only [Nat.reduceSub, Nat.reducePow] at * <;> split_ifs <;> first | rfl | omega
    rw [hc]
    simp only [carried, hh]
    have hlow : low (256 - 2 ^ (9 - l) + v % 2 ^ (8 - l)) (8 - l) = v % 2 ^ (8 - l) := by
      unfold low
      interval_cases l <;> simp only [Nat.reduceSub, Nat.reducePow] at * <;> omega
    rw [hlow, leValue_leBytes, Nat.shiftLeft_eq, Nat.or_comm, Nat.mul_comm, ← Nat.two_pow_add_eq_or_of_lt hlt, Nat.shiftRight_eq_div_pow]
    interval_cases l <;> simp only [Nat.reduceSub, Nat.reducePow, Nat.reduceMul] at * <;> omega

/-- The large form read back (R51, R52, R53). -/
theorem largeBytes_reads_back (n v : Nat) (h1 : 1 ≤ n) (h16 : n ≤ 16) (hv : v < 2 ^ (8 * n)) :
    ∃ (b0 : Byte) (rest : List Byte), largeBytes n v = b0 :: rest ∧ rest.length + 1 = encTotalLen b0 ∧ carried (classify b0) b0 rest = v := by
  have hc : classify (BitVec.ofNat 8 (0xF0 ||| (n - 1))) = .large n := by interval_cases n <;> rfl
  refine ⟨_, _, rfl, ?_, ?_⟩
  · rw [leBytes_length, encTotalLen, hc]; rfl
  · rw [hc]
    simp only [carried]
    rw [leValue_leBytes, Nat.mod_eq_of_lt (by rw [← two_pow_eight_mul]; exact hv)]

/-- The canonical encoding of a value reads back as the value, with its own length (R56, R85). -/
theorem canonicalBytes_reads_back (v : Nat) (h : v < 2 ^ 128) :
    ∃ (b0 : Byte) (rest : List Byte), canonicalBytes v = b0 :: rest ∧ rest.length + 1 = encTotalLen b0 ∧ carried (classify b0) b0 rest = v := by
  unfold canonicalBytes
  split_ifs with h1 h2
  · have hv : (BitVec.ofNat 8 v).toNat = v := by rw [BitVec.toNat_ofNat]; omega
    refine ⟨_, _, rfl, ?_, ?_⟩
    · rw [encTotalLen_eq, hv]; unfold prefixLen; rw [if_pos (by omega)]; rfl
    · rw [classify_eq, hv, if_pos (by omega)]
      exact hv
  · rw [mediumLen_eq_wireLen v (by omega) h2]
    obtain ⟨a, b, c⟩ := wireLen_medium_bounds v (by omega) h2
    exact mediumBytes_reads_back _ v a b c
  · rw [largeCount_eq_wireLen v (by omega) h]
    obtain ⟨a, b, _, d⟩ := wireLen_large_bounds v (by omega) h
    exact largeBytes_reads_back _ v (by omega) (by omega) d

/-- The canonical encoding byte by byte, as arithmetic (R49, R50, R51, R56). -/
theorem canonicalBytes_getElem (v i : Nat) (h : v < 2 ^ 128) (hi : i < (canonicalBytes v).length) :
    (canonicalBytes v)[i].toNat = wireByte v i := by
  have hlen := canonicalBytes_length v h
  unfold wireByte
  split_ifs with h1 h2 h0 h0
  · rw [wireLen_small v h1] at hlen
    have : i = 0 := by omega
    subst this
    simp only [canonicalBytes, if_pos h1, List.getElem_cons_zero, BitVec.toNat_ofNat]
    omega
  · subst h0
    obtain ⟨a, b, _⟩ := wireLen_medium_bounds v (by omega) h2
    simp only [canonicalBytes, if_neg h1, if_pos h2, mediumLen_eq_wireLen v (by omega) h2, mediumBytes, List.getElem_cons_zero]
    exact mediumHead_toNat _ v a b
  · obtain ⟨j, rfl⟩ := Nat.exists_eq_succ_of_ne_zero h0
    simp only [canonicalBytes, if_neg h1, if_pos h2, mediumLen_eq_wireLen v (by omega) h2, mediumBytes, Nat.succ_eq_add_one,
      List.getElem_cons_succ, leBytes_getElem, Nat.shiftRight_eq_div_pow, Nat.add_sub_cancel]
  · subst h0
    obtain ⟨a, b, _⟩ := wireLen_large_bounds v (by omega) h
    simp only [canonicalBytes, if_neg h1, if_neg h2, largeCount_eq_wireLen v (by omega) h, largeBytes, List.getElem_cons_zero]
    rw [largeHead_toNat _ (by omega) (by omega)]
    omega
  · obtain ⟨j, rfl⟩ := Nat.exists_eq_succ_of_ne_zero h0
    simp only [canonicalBytes, if_neg h1, if_neg h2, largeCount_eq_wireLen v (by omega) h, largeBytes, Nat.succ_eq_add_one,
      List.getElem_cons_succ, leBytes_getElem, Nat.add_sub_cancel]

end Sys2Proof.Machine
end

