-- ==== Sys2Proof/Laws/Ops.lean ====
section
/-! SUPPORT. One lemma for each shared operation that says once what it can do, and that every operation is one of the three shared
operations of its form. -/

namespace Sys2Proof.Machine

open Sys2Proof.Safety

/-! ## Giving a response -/

/-- A response given on a state with another buffer answers the original request. -/
theorem answered_respond (s : State) (m : Memory) (p : Response) : Answered s (({ s with buf := m }).respond p) p :=
  ⟨rfl, rfl, rfl, rfl, rfl, rfl, rfl, rfl⟩

theorem answered_respond_self (s : State) (p : Response) : Answered s (s.respond p) p := answered_respond s s.buf p

theorem answered_raise (s : State) (f : Failure) : Answered s (s.raise f) f.response := answered_respond_self s f.response

theorem sameBuffer_respond (s : State) (p : Response) : SameBuffer s (s.respond p) := fun _ => rfl

theorem sameBuffer_raise (s : State) (f : Failure) : SameBuffer s (s.raise f) := fun _ => rfl

/-! ## Encodes -/

/-- The capacity check is `Room` (R69). -/
theorem encodeFits_iff (b : Build) (j : EncodeJob) (hv : j.v < 2 ^ 128) :
    encodeFits b j = true ↔ Room b (maxEncLen j.w) j.off j.len j.v := by
  unfold encodeFits Room encodeNeed
  rw [encLen_eq_wireLen j.v hv, Bool.and_eq_true, decide_eq_true_eq, decide_eq_true_eq]
  cases b.capacityRule <;> simp

/-- Everything an encode can do when the capacity check passes (R68, R71). -/
theorem runEncode_of_room (j : EncodeJob) (s : State) (hv : j.v < 2 ^ 128) (h : Room s.build (maxEncLen j.w) j.off j.len j.v) :
    runEncode j s = .next (({ s with buf := s.buf.writeBytes j.off (canonicalBytes j.v) }).respond (okResponse false 0 (wireLen j.v))) := by
  unfold runEncode
  rw [if_pos ((encodeFits_iff _ _ hv).2 h), canonicalBytes_length j.v hv]

/-- Everything an encode can do when the capacity check fails (R70, R137). -/
theorem runEncode_of_not_room (j : EncodeJob) (s : State) (hv : j.v < 2 ^ 128) (h : ¬ Room s.build (maxEncLen j.w) j.off j.len j.v) :
    runEncode j s = .next (s.raise .capacity) := by
  unfold runEncode
  rw [if_neg (fun hc => h ((encodeFits_iff _ _ hv).1 hc))]

/-- The writes of an encode leave the canonical encoding at `off` and every other byte as it was (R71). -/
theorem holdsEncoding_writeBytes (s : State) (p : Response) (off v : Nat) (hv : v < 2 ^ 128) :
    HoldsEncoding s (({ s with buf := s.buf.writeBytes off (canonicalBytes v) }).respond p) off v := by
  have hlen := canonicalBytes_length v hv
  refine ⟨fun i hi => ?_, fun x hx => ?_⟩
  · show (Memory.read (s.buf.writeBytes off (canonicalBytes v)) (off + i)).toNat = _
    rw [Memory.read_writeBytes_inside _ _ _ _ (by omega), canonicalBytes_getElem v i hv]
  · exact Memory.read_writeBytes_outside _ _ _ _ (by omega)

/-! ## Decodes -/

theorem shape_totalLen_eq (b : Byte) : (classify b).totalLen = prefixLen b.toNat := encTotalLen_eq b

/-- The number an encoding in the buffer carries, from its bytes by the model's own assembly (R79). -/
def bufferValue (s : State) (off : Nat) : Nat :=
  carried (classify (s.buf.read off)) (s.buf.read off) (s.buf.readBytes (off + 1) (lengthAt s off - 1))

/-- DECODE_U on an incomplete encoding (R80, R138). -/
theorem decodeUnsigned_of_not_complete (w off len : Nat) (s : State) (h : ¬ Complete s off len) : decodeUnsigned w off len s = .short := by
  unfold decodeUnsigned
  simp only [shape_totalLen_eq]
  unfold Complete lengthAt byteAt at h
  simp only [Nat.add_zero] at h
  split_ifs <;> first | rfl | (exact absurd ⟨by omega, by omega⟩ h)

/-- DECODE_U on a complete encoding: the width check on the number it carries (R79, R83). -/
theorem decodeUnsigned_of_complete (w off len : Nat) (s : State) (h : Complete s off len) :
    decodeUnsigned w off len s = widthCheck s.build.widthPolicy w (bufferValue s off) (lengthAt s off) := by
  unfold decodeUnsigned bufferValue
  simp only [shape_totalLen_eq]
  unfold Complete lengthAt byteAt at *
  simp only [Nat.add_zero] at *
  rw [if_neg (by omega), if_neg (by omega)]

/-- Everything a decode can do (R79, R117, R119): one of the four responses, and no byte changes. -/
theorem runDecode_cases (w : Nat) (back : BitVec w → BitVec w) (off len : Nat) (s : State) :
    (¬ Complete s off len ∧ runDecode w back off len s = .next (s.raise .short)) ∨
    (Complete s off len ∧ bufferValue s off < 2 ^ w ∧
      runDecode w back off len s =
        .next (s.respond (okResponse false (result (back (BitVec.ofNat w (bufferValue s off)))) (lengthAt s off)))) ∨
    (Complete s off len ∧ 2 ^ w ≤ bufferValue s off ∧ s.build.widthPolicy = .reject ∧
      runDecode w back off len s = .next (s.raise (.width (lengthAt s off)))) ∨
    (Complete s off len ∧ 2 ^ w ≤ bufferValue s off ∧ s.build.widthPolicy = .truncate ∧
      runDecode w back off len s =
        .next (s.respond (okResponse true (result (back (BitVec.ofNat w (low (bufferValue s off) w)))) (lengthAt s off)))) := by
  by_cases hc : Complete s off len
  · right
    unfold runDecode
    rw [decodeUnsigned_of_complete w off len s hc]
    unfold widthCheck
    by_cases hv : bufferValue s off < 2 ^ w
    · left; simp [hc, hv]
    · right
      cases hp : s.build.widthPolicy
      · left; simp [hc, hv]; omega
      · right; simp [hc, hv]; omega
  · left
    refine ⟨hc, ?_⟩
    unfold runDecode
    rw [decodeUnsigned_of_not_complete w off len s hc]

/-! ## Maps -/

/-- Everything a raw mapping can do (R96, R111). -/
theorem runMap_eq (w : Nat) (f : BitVec w → BitVec w) (a : Word) (s : State) :
    runMap w f a s = .next (s.respond (okResponse false (result (f (operand w a))) 0)) := rfl

/-! ## Every operation -/

/-- An encode's operation runs its job (R68, R116, R118). -/
theorem exec_of_encodeJob (i : Instr) (j : EncodeJob) (s : State) (h : encodeJob i = some j) : exec i s = runEncode j s := by
  cases i <;> simp only [encodeJob, Option.some.injEq, reduceCtorEq] at h <;> subst h <;> rfl

/-- Every encode's value fits its width, so it has a canonical encoding (R9, R72). -/
theorem encodeJob_value_lt (i : Instr) (j : EncodeJob) (h : encodeJob i = some j) : j.v < 2 ^ j.w ∧ j.w ≤ 128 := by
  cases i <;> simp only [encodeJob, Option.some.injEq, reduceCtorEq] at h <;> subst h <;>
    exact ⟨BitVec.isLt _, Nat.le_of_ble_eq_true rfl⟩

/-- Every operation is an encode of its job, a decode, or a raw mapping. -/
theorem exec_is_shared (i : Instr) (s : State) :
    (i.form = .memEnc ∧ ∃ j, encodeJob i = some j ∧ exec i s = runEncode j s) ∨
    (i.form = .memDec ∧ ∃ (w : Nat) (back : BitVec w → BitVec w) (off len : Nat), exec i s = runDecode w back off len s) ∨
    (i.form = .map ∧ ∃ (w : Nat) (f : BitVec w → BitVec w) (a : Word), exec i s = runMap w f a s) := by
  cases i <;> first
    | exact .inl ⟨rfl, _, rfl, rfl⟩
    | exact .inr (.inl ⟨rfl, _, _, _, _, rfl⟩)
    | exact .inr (.inr ⟨rfl, _, _, _, rfl⟩)

/-- What a decoded request runs: an encode of a job with the request's `off` and `len`, a decode at them, or a raw mapping, each a
function of the request alone (R64). -/
theorem decode_is_shared (r : Request) (i : Instr) (h : decode r = .ok i) :
    (i.form = .memEnc ∧ ∃ j, encodeJob i = some j ∧ j.w = i.width ∧ j.off = r.off ∧ j.len = r.len ∧ ∀ s, exec i s = runEncode j s) ∨
    (i.form = .memDec ∧ encodeJob i = none ∧ ∃ back : BitVec i.width → BitVec i.width, ∀ s, exec i s = runDecode i.width back r.off r.len s) ∨
    (i.form = .map ∧ encodeJob i = none ∧ ∃ f : BitVec i.width → BitVec i.width, ∀ s, exec i s = runMap i.width f r.a s) := by
  unfold decode at h
  split at h <;> first
    | exact absurd h (by simp only [reduceCtorEq, not_false_eq_true])
    | (obtain rfl := Except.ok.inj h; exact .inl ⟨rfl, _, rfl, rfl, rfl, rfl, fun _ => rfl⟩)
    | (obtain rfl := Except.ok.inj h; exact .inr (.inl ⟨rfl, rfl, _, fun _ => rfl⟩))
    | (obtain rfl := Except.ok.inj h; exact .inr (.inr ⟨rfl, rfl, _, fun _ => rfl⟩))

theorem instr_width_mem (i : Instr) : i.width ∈ [8, 16, 32, 64, 128] := by cases i <;> simp [Instr.width]

/-- Threading the cursor answers the same, but for the cursor. -/
theorem answered_threadCursor_fields (s t : State) (i : Instr) (r : Request) (p : Response) (h : Answered s t p) :
    (t.threadCursor i r).trans = .idle ∧ (t.threadCursor i r).rsp = some p ∧ (t.threadCursor i r).responses = s.responses ++ [p] ∧
      (t.threadCursor i r).build = s.build ∧ (t.threadCursor i r).inputs = s.inputs ∧
      (t.threadCursor i r).intrusions = s.intrusions ∧ (t.threadCursor i r).abandoned = s.abandoned := by
  obtain ⟨h1, h2, h3, h4, _, h6, h7, h8⟩ := h
  simp [h1, h2, h3, h4, h6, h7, h8]

end Sys2Proof.Machine
end

