-- ==== Sys2Proof/Laws/PerInstr.lean ====
section
/-! SUPPORT. Statements made for every operation, one lemma per constructor. `OpcodeFields`: the fields of an operation's code say its form,
its direction and its width (R61). -/

namespace Sys2Proof.Laws

/-- The width a width code stands for (R61). -/
def widthOfCode (wc : Nat) : Option Nat :=
  if wc = 0 then some 8 else if wc = 1 then some 16 else if wc = 2 then some 32 else if wc = 3 then some 64 else if wc = 4 then some 128 else none

/-- R61 for one operation: `rsv` is 0; `wc` names its width; a raw mapping is exactly class 11, and only there may `map` be 1; outside it
`dir` tells a decode from an encode; a float or bit-reversal code is 32 or 64 bits wide; and the code is one of the 38 of R62. -/
def OpcodeFields.Statement (i : Instr) : Prop :=
  opRsv (opcode i) = false ∧ widthOfCode (opWc (opcode i)).toNat = some i.width ∧
    (i.form = .map ↔ opCls (opcode i) = 3) ∧ (opMap (opcode i) = true → i.form = .map) ∧
    (i.form = .memEnc ↔ opCls (opcode i) ≠ 3 ∧ opDir (opcode i) = false) ∧
    (opCls (opcode i) = 2 ∨ opMap (opcode i) = true → i.width = 32 ∨ i.width = 64) ∧
    (opcode i).toNat ∈ Safety.legalCodes

theorem OpcodeFields.encodeU8 (a : Word) (off len : Nat) : OpcodeFields.Statement (.encodeU8 a off len) := by
  unfold OpcodeFields.Statement; simp only [opcode, Instr.form, Instr.width]; decide
theorem OpcodeFields.encodeU16 (a : Word) (off len : Nat) : OpcodeFields.Statement (.encodeU16 a off len) := by
  unfold OpcodeFields.Statement; simp only [opcode, Instr.form, Instr.width]; decide
theorem OpcodeFields.encodeU32 (a : Word) (off len : Nat) : OpcodeFields.Statement (.encodeU32 a off len) := by
  unfold OpcodeFields.Statement; simp only [opcode, Instr.form, Instr.width]; decide
theorem OpcodeFields.encodeU64 (a : Word) (off len : Nat) : OpcodeFields.Statement (.encodeU64 a off len) := by
  unfold OpcodeFields.Statement; simp only [opcode, Instr.form, Instr.width]; decide
theorem OpcodeFields.encodeU128 (a : Word) (off len : Nat) : OpcodeFields.Statement (.encodeU128 a off len) := by
  unfold OpcodeFields.Statement; simp only [opcode, Instr.form, Instr.width]; decide
theorem OpcodeFields.decodeU8 (off len : Nat) : OpcodeFields.Statement (.decodeU8 off len) := by
  unfold OpcodeFields.Statement; simp only [opcode, Instr.form, Instr.width]; decide
theorem OpcodeFields.decodeU16 (off len : Nat) : OpcodeFields.Statement (.decodeU16 off len) := by
  unfold OpcodeFields.Statement; simp only [opcode, Instr.form, Instr.width]; decide
theorem OpcodeFields.decodeU32 (off len : Nat) : OpcodeFields.Statement (.decodeU32 off len) := by
  unfold OpcodeFields.Statement; simp only [opcode, Instr.form, Instr.width]; decide
theorem OpcodeFields.decodeU64 (off len : Nat) : OpcodeFields.Statement (.decodeU64 off len) := by
  unfold OpcodeFields.Statement; simp only [opcode, Instr.form, Instr.width]; decide
theorem OpcodeFields.decodeU128 (off len : Nat) : OpcodeFields.Statement (.decodeU128 off len) := by
  unfold OpcodeFields.Statement; simp only [opcode, Instr.form, Instr.width]; decide
theorem OpcodeFields.encodeI8 (a : Word) (off len : Nat) : OpcodeFields.Statement (.encodeI8 a off len) := by
  unfold OpcodeFields.Statement; simp only [opcode, Instr.form, Instr.width]; decide
theorem OpcodeFields.encodeI16 (a : Word) (off len : Nat) : OpcodeFields.Statement (.encodeI16 a off len) := by
  unfold OpcodeFields.Statement; simp only [opcode, Instr.form, Instr.width]; decide
theorem OpcodeFields.encodeI32 (a : Word) (off len : Nat) : OpcodeFields.Statement (.encodeI32 a off len) := by
  unfold OpcodeFields.Statement; simp only [opcode, Instr.form, Instr.width]; decide
theorem OpcodeFields.encodeI64 (a : Word) (off len : Nat) : OpcodeFields.Statement (.encodeI64 a off len) := by
  unfold OpcodeFields.Statement; simp only [opcode, Instr.form, Instr.width]; decide
theorem OpcodeFields.encodeI128 (a : Word) (off len : Nat) : OpcodeFields.Statement (.encodeI128 a off len) := by
  unfold OpcodeFields.Statement; simp only [opcode, Instr.form, Instr.width]; decide
theorem OpcodeFields.decodeI8 (off len : Nat) : OpcodeFields.Statement (.decodeI8 off len) := by
  unfold OpcodeFields.Statement; simp only [opcode, Instr.form, Instr.width]; decide
theorem OpcodeFields.decodeI16 (off len : Nat) : OpcodeFields.Statement (.decodeI16 off len) := by
  unfold OpcodeFields.Statement; simp only [opcode, Instr.form, Instr.width]; decide
theorem OpcodeFields.decodeI32 (off len : Nat) : OpcodeFields.Statement (.decodeI32 off len) := by
  unfold OpcodeFields.Statement; simp only [opcode, Instr.form, Instr.width]; decide
theorem OpcodeFields.decodeI64 (off len : Nat) : OpcodeFields.Statement (.decodeI64 off len) := by
  unfold OpcodeFields.Statement; simp only [opcode, Instr.form, Instr.width]; decide
theorem OpcodeFields.decodeI128 (off len : Nat) : OpcodeFields.Statement (.decodeI128 off len) := by
  unfold OpcodeFields.Statement; simp only [opcode, Instr.form, Instr.width]; decide
theorem OpcodeFields.encodeF32 (a : Word) (off len : Nat) : OpcodeFields.Statement (.encodeF32 a off len) := by
  unfold OpcodeFields.Statement; simp only [opcode, Instr.form, Instr.width]; decide
theorem OpcodeFields.encodeF64 (a : Word) (off len : Nat) : OpcodeFields.Statement (.encodeF64 a off len) := by
  unfold OpcodeFields.Statement; simp only [opcode, Instr.form, Instr.width]; decide
theorem OpcodeFields.decodeF32 (off len : Nat) : OpcodeFields.Statement (.decodeF32 off len) := by
  unfold OpcodeFields.Statement; simp only [opcode, Instr.form, Instr.width]; decide
theorem OpcodeFields.decodeF64 (off len : Nat) : OpcodeFields.Statement (.decodeF64 off len) := by
  unfold OpcodeFields.Statement; simp only [opcode, Instr.form, Instr.width]; decide
theorem OpcodeFields.zigzagEncodeI8 (a : Word) : OpcodeFields.Statement (.zigzagEncodeI8 a) := by
  unfold OpcodeFields.Statement; simp only [opcode, Instr.form, Instr.width]; decide
theorem OpcodeFields.zigzagEncodeI16 (a : Word) : OpcodeFields.Statement (.zigzagEncodeI16 a) := by
  unfold OpcodeFields.Statement; simp only [opcode, Instr.form, Instr.width]; decide
theorem OpcodeFields.zigzagEncodeI32 (a : Word) : OpcodeFields.Statement (.zigzagEncodeI32 a) := by
  unfold OpcodeFields.Statement; simp only [opcode, Instr.form, Instr.width]; decide
theorem OpcodeFields.zigzagEncodeI64 (a : Word) : OpcodeFields.Statement (.zigzagEncodeI64 a) := by
  unfold OpcodeFields.Statement; simp only [opcode, Instr.form, Instr.width]; decide
theorem OpcodeFields.zigzagEncodeI128 (a : Word) : OpcodeFields.Statement (.zigzagEncodeI128 a) := by
  unfold OpcodeFields.Statement; simp only [opcode, Instr.form, Instr.width]; decide
theorem OpcodeFields.zigzagDecodeI8 (a : Word) : OpcodeFields.Statement (.zigzagDecodeI8 a) := by
  unfold OpcodeFields.Statement; simp only [opcode, Instr.form, Instr.width]; decide
theorem OpcodeFields.zigzagDecodeI16 (a : Word) : OpcodeFields.Statement (.zigzagDecodeI16 a) := by
  unfold OpcodeFields.Statement; simp only [opcode, Instr.form, Instr.width]; decide
theorem OpcodeFields.zigzagDecodeI32 (a : Word) : OpcodeFields.Statement (.zigzagDecodeI32 a) := by
  unfold OpcodeFields.Statement; simp only [opcode, Instr.form, Instr.width]; decide
theorem OpcodeFields.zigzagDecodeI64 (a : Word) : OpcodeFields.Statement (.zigzagDecodeI64 a) := by
  unfold OpcodeFields.Statement; simp only [opcode, Instr.form, Instr.width]; decide
theorem OpcodeFields.zigzagDecodeI128 (a : Word) : OpcodeFields.Statement (.zigzagDecodeI128 a) := by
  unfold OpcodeFields.Statement; simp only [opcode, Instr.form, Instr.width]; decide
theorem OpcodeFields.bitrevEncodeF32 (a : Word) : OpcodeFields.Statement (.bitrevEncodeF32 a) := by
  unfold OpcodeFields.Statement; simp only [opcode, Instr.form, Instr.width]; decide
theorem OpcodeFields.bitrevEncodeF64 (a : Word) : OpcodeFields.Statement (.bitrevEncodeF64 a) := by
  unfold OpcodeFields.Statement; simp only [opcode, Instr.form, Instr.width]; decide
theorem OpcodeFields.bitrevDecodeF32 (a : Word) : OpcodeFields.Statement (.bitrevDecodeF32 a) := by
  unfold OpcodeFields.Statement; simp only [opcode, Instr.form, Instr.width]; decide
theorem OpcodeFields.bitrevDecodeF64 (a : Word) : OpcodeFields.Statement (.bitrevDecodeF64 a) := by
  unfold OpcodeFields.Statement; simp only [opcode, Instr.form, Instr.width]; decide

end Sys2Proof.Laws
end

