-- ==== Sys2Proof/Laws/Step.lean ====
section
/-! SUPPORT. What one step can do, said once: the host's move, an event during a request, or the request itself. -/

namespace Sys2Proof.Machine

/-- An IDLE step is the host's next move, or nothing. -/
theorem step_of_idle {s : State} (h : s.trans = .idle) :
    step s = match s.inputs with | [] => .next s | m :: ms => hostMove m { s with inputs := ms } := by
  cases s; cases h; rfl

/-- A BUSY step is the next event from outside, or the request. -/
theorem step_of_busy {s : State} {r : Request} (h : s.trans = .busy r) :
    step s = match s.intrusions with | [] => runRequest r s | e :: es => intrude r e { s with intrusions := es } := by
  cases s; cases h; rfl

/-- A BUSY step with nothing to come runs the request. -/
theorem step_of_busy_nil {s : State} {r : Request} (h : s.trans = .busy r) (hi : s.intrusions = []) : step s = runRequest r s := by
  rw [step_of_busy h, hi]

/-- A request with an illegal code is answered by the shared failure (R141, R143). -/
theorem runRequest_of_error {r : Request} {e : DecodeError} (h : decode r = .error e) (s : State) :
    runRequest r s = .next (s.raise .illegalOp) := by simp only [runRequest, h]

/-- A request with a legal code runs its operation, and the caller threads its cursor (R23). -/
theorem runRequest_of_ok {r : Request} {i : Instr} (h : decode r = .ok i) (s : State) :
    runRequest r s = match exec i s with | .next t => .next (t.threadCursor i r) | .fault f => .fault f | .refused f => .refused f := by
  cases he : exec i s <;> simp only [runRequest, h, he]

/-- The bytes other agents must leave alone: those of the region of a BUSY encode or decode (R43, R159). -/
theorem inBusyRegion_iff (r : Request) (addr : Nat) :
    inBusyRegion r addr = true ↔ ∃ i, decode r = .ok i ∧ i.form ≠ .map ∧ r.off ≤ addr ∧ addr < r.len := by
  unfold inBusyRegion
  cases h : decode r <;> simp [and_assoc]

/-- A write races in the region and nowhere else. -/
@[simp] theorem writeRaces_eq (r : Request) (addr : Nat) : writeRaces r addr = inBusyRegion r addr := rfl

/-- A read races where a write does. -/
@[simp] theorem readRaces_eq (r : Request) (addr : Nat) : readRaces r addr = inBusyRegion r addr := rfl

/-- What abandoning a request leaves, whatever the request (R155, R156). -/
theorem abandon_fields (s : State) (r : Request) :
    (s.abandon r).trans = .idle ∧ (s.abandon r).rsp = none ∧ (s.abandon r).responses = s.responses ∧ (s.abandon r).build = s.build ∧
      (s.abandon r).cursor = s.cursor ∧ (s.abandon r).inputs = s.inputs ∧ (s.abandon r).intrusions = [] := by
  unfold State.abandon
  split
  · split <;> exact ⟨rfl, rfl, rfl, rfl, rfl, rfl, rfl⟩
  · exact ⟨rfl, rfl, rfl, rfl, rfl, rfl, rfl⟩

/-- What abandoning a request leaves in the buffer: some bytes of the encode it stands for, or all as it was (R156). -/
theorem abandon_buf (s : State) (r : Request) :
    (s.abandon r).buf = s.buf ∨ ∃ i j, decode r = .ok i ∧ encodeJob i = some j ∧
      (s.abandon r).buf = Memory.writeSome s.abandoned s.buf j.off 0 (plannedBytes s.build j) := by
  unfold State.abandon
  split
  · rename_i i hd
    split
    · rename_i j hj; exact .inr ⟨i, j, hd, hj, rfl⟩
    · exact .inl rfl
  · exact .inl rfl

end Sys2Proof.Machine
end

