-- ==== Sys2Proof/Tests/Slice0.lean ====
section
/-! SUPPORT. The model's own tests. Expected results are the vectors of 95_test_vectors.md and the corner cases of the operations' rules,
never the model's answers. The last part shows, for each obligation with hypotheses, that something meets them. -/

namespace Sys2Proof.Tests

open Sys2Proof.Machine Sys2Proof.Safety

/-! ## Well-formedness (R66) -/

theorem test_wellFormed_accepts_the_width : Instr.wellFormed (.encodeU8 0xFF 0 2) = true := by decide
theorem test_wellFormed_refuses_a_wide_operand : Instr.wellFormed (.encodeU8 0x100 0 2) = false := by decide
theorem test_wellFormed_refuses_a_wide_map_operand : Instr.wellFormed (.bitrevEncodeF32 0x100000000) = false := by decide
theorem test_wellFormed_decode_has_no_operand : Instr.wellFormed (.decodeU8 7 3) = true := by decide
theorem test_literal_refused_without_operand : Literal.pattern .none 8 (.hex 0) = .error .noOperand := by rfl
theorem test_literal_decimal_refused_without_operand : Literal.pattern .none 8 (.dec 0) = .error .noOperand := by rfl
theorem test_literal_refuses_a_wide_pattern : Literal.pattern .unsigned 8 (.hex 0x100) = .error .tooWide := by rfl
theorem test_literal_refuses_a_wide_decimal : Literal.pattern .unsigned 8 (.dec 256) = .error .tooWide := by rfl
theorem test_literal_refuses_a_decimal_below_the_signed_range : Literal.pattern .signed 8 (.dec (-129)) = .error .tooWide := by rfl
theorem test_literal_refuses_a_negative_unsigned : Literal.pattern .unsigned 8 (.dec (-1)) = .error .negativeUnsigned := by rfl
theorem test_literal_refuses_a_decimal_float : Literal.pattern .float 32 (.dec 1) = .error .decimalFloat := by rfl
theorem test_literal_negative_is_twos_complement : Literal.pattern .signed 16 (.dec (-2)) = .ok 0xFFFE := by rfl

/-! ## Decoding: every operation from its code, written out bit by bit as R61's fields `cls rsv map dir wc`, with the request's operands -/

theorem test_decode_encode_u8 : decode ⟨0b00000000, 0x7B, 5, 9⟩ = .ok (.encodeU8 0x7B 5 9) := by rfl
theorem test_decode_encode_u16 : decode ⟨0b00000001, 0x7B, 5, 9⟩ = .ok (.encodeU16 0x7B 5 9) := by rfl
theorem test_decode_encode_u32 : decode ⟨0b00000010, 0x7B, 5, 9⟩ = .ok (.encodeU32 0x7B 5 9) := by rfl
theorem test_decode_encode_u64 : decode ⟨0b00000011, 0x7B, 5, 9⟩ = .ok (.encodeU64 0x7B 5 9) := by rfl
theorem test_decode_encode_u128 : decode ⟨0b00000100, 0x7B, 5, 9⟩ = .ok (.encodeU128 0x7B 5 9) := by rfl
theorem test_decode_decode_u8 : decode ⟨0b00001000, 0x7B, 5, 9⟩ = .ok (.decodeU8 5 9) := by rfl
theorem test_decode_decode_u16 : decode ⟨0b00001001, 0x7B, 5, 9⟩ = .ok (.decodeU16 5 9) := by rfl
theorem test_decode_decode_u32 : decode ⟨0b00001010, 0x7B, 5, 9⟩ = .ok (.decodeU32 5 9) := by rfl
theorem test_decode_decode_u64 : decode ⟨0b00001011, 0x7B, 5, 9⟩ = .ok (.decodeU64 5 9) := by rfl
theorem test_decode_decode_u128 : decode ⟨0b00001100, 0x7B, 5, 9⟩ = .ok (.decodeU128 5 9) := by rfl
theorem test_decode_encode_i8 : decode ⟨0b01000000, 0x7B, 5, 9⟩ = .ok (.encodeI8 0x7B 5 9) := by rfl
theorem test_decode_encode_i16 : decode ⟨0b01000001, 0x7B, 5, 9⟩ = .ok (.encodeI16 0x7B 5 9) := by rfl
theorem test_decode_encode_i32 : decode ⟨0b01000010, 0x7B, 5, 9⟩ = .ok (.encodeI32 0x7B 5 9) := by rfl
theorem test_decode_encode_i64 : decode ⟨0b01000011, 0x7B, 5, 9⟩ = .ok (.encodeI64 0x7B 5 9) := by rfl
theorem test_decode_encode_i128 : decode ⟨0b01000100, 0x7B, 5, 9⟩ = .ok (.encodeI128 0x7B 5 9) := by rfl
theorem test_decode_decode_i8 : decode ⟨0b01001000, 0x7B, 5, 9⟩ = .ok (.decodeI8 5 9) := by rfl
theorem test_decode_decode_i16 : decode ⟨0b01001001, 0x7B, 5, 9⟩ = .ok (.decodeI16 5 9) := by rfl
theorem test_decode_decode_i32 : decode ⟨0b01001010, 0x7B, 5, 9⟩ = .ok (.decodeI32 5 9) := by rfl
theorem test_decode_decode_i64 : decode ⟨0b01001011, 0x7B, 5, 9⟩ = .ok (.decodeI64 5 9) := by rfl
theorem test_decode_decode_i128 : decode ⟨0b01001100, 0x7B, 5, 9⟩ = .ok (.decodeI128 5 9) := by rfl
theorem test_decode_encode_f32 : decode ⟨0b10000010, 0x7B, 5, 9⟩ = .ok (.encodeF32 0x7B 5 9) := by rfl
theorem test_decode_encode_f64 : decode ⟨0b10000011, 0x7B, 5, 9⟩ = .ok (.encodeF64 0x7B 5 9) := by rfl
theorem test_decode_decode_f32 : decode ⟨0b10001010, 0x7B, 5, 9⟩ = .ok (.decodeF32 5 9) := by rfl
theorem test_decode_decode_f64 : decode ⟨0b10001011, 0x7B, 5, 9⟩ = .ok (.decodeF64 5 9) := by rfl
theorem test_decode_zigzag_encode_i8 : decode ⟨0b11000000, 0x7B, 5, 9⟩ = .ok (.zigzagEncodeI8 0x7B) := by rfl
theorem test_decode_zigzag_encode_i16 : decode ⟨0b11000001, 0x7B, 5, 9⟩ = .ok (.zigzagEncodeI16 0x7B) := by rfl
theorem test_decode_zigzag_encode_i32 : decode ⟨0b11000010, 0x7B, 5, 9⟩ = .ok (.zigzagEncodeI32 0x7B) := by rfl
theorem test_decode_zigzag_encode_i64 : decode ⟨0b11000011, 0x7B, 5, 9⟩ = .ok (.zigzagEncodeI64 0x7B) := by rfl
theorem test_decode_zigzag_encode_i128 : decode ⟨0b11000100, 0x7B, 5, 9⟩ = .ok (.zigzagEncodeI128 0x7B) := by rfl
theorem test_decode_zigzag_decode_i8 : decode ⟨0b11001000, 0x7B, 5, 9⟩ = .ok (.zigzagDecodeI8 0x7B) := by rfl
theorem test_decode_zigzag_decode_i16 : decode ⟨0b11001001, 0x7B, 5, 9⟩ = .ok (.zigzagDecodeI16 0x7B) := by rfl
theorem test_decode_zigzag_decode_i32 : decode ⟨0b11001010, 0x7B, 5, 9⟩ = .ok (.zigzagDecodeI32 0x7B) := by rfl
theorem test_decode_zigzag_decode_i64 : decode ⟨0b11001011, 0x7B, 5, 9⟩ = .ok (.zigzagDecodeI64 0x7B) := by rfl
theorem test_decode_zigzag_decode_i128 : decode ⟨0b11001100, 0x7B, 5, 9⟩ = .ok (.zigzagDecodeI128 0x7B) := by rfl
theorem test_decode_bitrev_encode_f32 : decode ⟨0b11010010, 0x7B, 5, 9⟩ = .ok (.bitrevEncodeF32 0x7B) := by rfl
theorem test_decode_bitrev_encode_f64 : decode ⟨0b11010011, 0x7B, 5, 9⟩ = .ok (.bitrevEncodeF64 0x7B) := by rfl
theorem test_decode_bitrev_decode_f32 : decode ⟨0b11011010, 0x7B, 5, 9⟩ = .ok (.bitrevDecodeF32 0x7B) := by rfl
theorem test_decode_bitrev_decode_f64 : decode ⟨0b11011011, 0x7B, 5, 9⟩ = .ok (.bitrevDecodeF64 0x7B) := by rfl

theorem test_decode_refuses_reserved_bit : decode ⟨0x20, 0, 0, 0⟩ = .error .reservedBit := by rfl
theorem test_decode_refuses_map_outside_raw : decode ⟨0x58, 0, 0, 0⟩ = .error .mapOutsideRaw := by rfl
theorem test_decode_refuses_width_code : decode ⟨0x05, 0, 0, 0⟩ = .error .widthCode := by rfl
theorem test_decode_refuses_float_width : decode ⟨0x84, 0, 0, 0⟩ = .error .floatWidth := by rfl
theorem test_decode_refuses_reversal_width : decode ⟨0xD0, 0, 0, 0⟩ = .error .floatWidth := by rfl
theorem test_decodeTableWord : decodeTableWord 8 0x8A = some (.decodeF32 0 0) := by rfl
theorem test_withFetchWord_runs : (match step (State.reset.withFetchWord 8 0xC0) with | .next t => t.rsp | _ => none) = some ⟨0, false, 0, 0⟩ := by rfl

/-! ## One step of each operation (95_test_vectors.md sections 2.1 to 2.8) -/

/-- A BUSY block with the given build, buffer and request. -/
def busy (b : Build) (bytes : List Byte) (r : Request) (during : List Intrusion) : State :=
  { State.reset with build := b, buf := Memory.writeBytes [] 0 bytes, trans := .busy r, intrusions := during }

/-- The parameters that are not the defaults (R11). -/
def other : Build := ⟨.truncate, .exact⟩

/-- The response one step gives. -/
def answer (b : Build) (bytes : List Byte) (r : Request) : Option Response :=
  match step (busy b bytes r []) with
  | .next t => t.rsp
  | _ => none

/-- The response of one step on a buffer of `0xEE`, and the first bytes after it. -/
def writes (b : Build) (r : Request) (count : Nat) : Option (Response × List Byte) :=
  match step (busy b (List.replicate r.len 0xEE) r []) with
  | .next t => t.rsp.map (fun p => (p, t.buf.readBytes 0 count))
  | _ => none

theorem test_encode_u8_medium : writes {} ⟨0x00, 0xC1, 0, 2⟩ 2 = some (⟨0, false, 0, 2⟩, [0x81, 0x03]) := by decide
theorem test_encode_u8_no_room : writes {} ⟨0x00, 0x5, 0, 1⟩ 1 = some (⟨1, false, 0, 0⟩, [0xEE]) := by decide
theorem test_encode_u16_three : writes {} ⟨0x01, 0x4000, 0, 3⟩ 3 = some (⟨0, false, 0, 3⟩, [0xC0, 0x00, 0x02]) := by decide
theorem test_encode_u16_no_room : writes {} ⟨0x01, 0x0, 2, 4⟩ 4 = some (⟨1, false, 0, 0⟩, [0xEE, 0xEE, 0xEE, 0xEE]) := by decide
theorem test_encode_u32_source_example : writes {} ⟨0x02, 0xABCDE, 0, 5⟩ 5 = some (⟨0, false, 0, 3⟩, [0xDE, 0xE6, 0x55, 0xEE, 0xEE]) := by decide
theorem test_encode_u32_smallest_large : writes {} ⟨0x02, 0x10000000, 0, 5⟩ 5 = some (⟨0, false, 0, 5⟩, [0xF3, 0x00, 0x00, 0x00, 0x10]) := by decide
theorem test_encode_u64_five_payload_bytes : writes {} ⟨0x03, 0x100000000, 0, 9⟩ 6 = some (⟨0, false, 0, 6⟩, [0xF4, 0x00, 0x00, 0x00, 0x00, 0x01]) := by decide
theorem test_encode_u64_eight_payload_bytes : writes {} ⟨0x03, 0x123456789ABCDEF, 0, 9⟩ 9 = some (⟨0, false, 0, 9⟩, [0xF7, 0xEF, 0xCD, 0xAB, 0x89, 0x67, 0x45, 0x23, 0x01]) := by decide
theorem test_encode_u128_largest : writes {} ⟨0x04, 0xFFFFFFFFFFFFFFFFFFFFFFFFFFFFFFFF, 0, 17⟩ 17 = some (⟨0, false, 0, 17⟩, [0xFF, 0xFF, 0xFF, 0xFF, 0xFF, 0xFF, 0xFF, 0xFF, 0xFF, 0xFF, 0xFF, 0xFF, 0xFF, 0xFF, 0xFF, 0xFF, 0xFF]) := by decide
theorem test_encode_u128_exact_room : writes other ⟨0x04, 0x0, 0, 16⟩ 16 = some (⟨0, false, 0, 1⟩, [0x00, 0xEE, 0xEE, 0xEE, 0xEE, 0xEE, 0xEE, 0xEE, 0xEE, 0xEE, 0xEE, 0xEE, 0xEE, 0xEE, 0xEE, 0xEE]) := by decide
theorem test_encode_i8_least : writes {} ⟨0x40, 0x80, 0, 2⟩ 2 = some (⟨0, false, 0, 2⟩, [0xBF, 0x03]) := by decide
theorem test_encode_i8_sixty_four : writes {} ⟨0x40, 0x40, 0, 2⟩ 2 = some (⟨0, false, 0, 2⟩, [0x80, 0x02]) := by decide
theorem test_encode_i16_at_cursor : writes {} ⟨0x41, 0xFFFE, 5, 32⟩ 7 = some (⟨0, false, 0, 1⟩, [0xEE, 0xEE, 0xEE, 0xEE, 0xEE, 0x03, 0xEE]) := by decide
theorem test_encode_i16_greatest : writes {} ⟨0x41, 0x7FFF, 0, 3⟩ 3 = some (⟨0, false, 0, 3⟩, [0xDE, 0xFF, 0x07]) := by decide
theorem test_encode_i32_greatest : writes {} ⟨0x42, 0x7FFFFFFF, 0, 5⟩ 5 = some (⟨0, false, 0, 5⟩, [0xF3, 0xFE, 0xFF, 0xFF, 0xFF]) := by decide
theorem test_encode_i32_sixty_four : writes {} ⟨0x42, 0x40, 0, 5⟩ 2 = some (⟨0, false, 0, 2⟩, [0x80, 0x02]) := by decide
theorem test_encode_i64_negative : writes {} ⟨0x43, 0xFFFFFFFFFFFFFFBF, 0, 9⟩ 2 = some (⟨0, false, 0, 2⟩, [0x81, 0x02]) := by decide
theorem test_encode_i64_greatest : writes {} ⟨0x43, 0x7FFFFFFFFFFFFFFF, 0, 9⟩ 9 = some (⟨0, false, 0, 9⟩, [0xF7, 0xFE, 0xFF, 0xFF, 0xFF, 0xFF, 0xFF, 0xFF, 0xFF]) := by decide
theorem test_encode_i128_minus_one : writes {} ⟨0x44, 0xFFFFFFFFFFFFFFFFFFFFFFFFFFFFFFFF, 0, 17⟩ 1 = some (⟨0, false, 0, 1⟩, [0x01]) := by decide
theorem test_encode_i128_greatest : writes {} ⟨0x44, 0x7FFFFFFFFFFFFFFFFFFFFFFFFFFFFFFF, 0, 17⟩ 17 = some (⟨0, false, 0, 17⟩, [0xFF, 0xFE, 0xFF, 0xFF, 0xFF, 0xFF, 0xFF, 0xFF, 0xFF, 0xFF, 0xFF, 0xFF, 0xFF, 0xFF, 0xFF, 0xFF, 0xFF]) := by decide
theorem test_encode_f32_one : writes {} ⟨0x82, 0x3F800000, 0, 5⟩ 2 = some (⟨0, false, 0, 2⟩, [0xBC, 0x07]) := by decide
theorem test_encode_f32_pattern : writes {} ⟨0x82, 0x12345678, 0, 5⟩ 5 = some (⟨0, false, 0, 5⟩, [0xF3, 0x48, 0x2C, 0x6A, 0x1E]) := by decide
theorem test_encode_f64_one : writes {} ⟨0x83, 0x3FF0000000000000, 0, 9⟩ 2 = some (⟨0, false, 0, 2⟩, [0xBC, 0x3F]) := by decide
theorem test_encode_f64_pattern : writes {} ⟨0x83, 0x0123456789ABCDEF, 0, 9⟩ 9 = some (⟨0, false, 0, 9⟩, [0xF7, 0x80, 0xC4, 0xA2, 0xE6, 0x91, 0xD5, 0xB3, 0xF7]) := by decide

theorem test_decode_u8_too_wide : answer {} [0x80, 0x04] ⟨0x08, 0, 0, 2⟩ = some ⟨3, false, 0, 2⟩ := by decide
theorem test_decode_u8_truncated : answer other [0xF3, 0x78, 0x56, 0x34, 0x12] ⟨0x08, 0, 0, 5⟩ = some ⟨0, true, 0x78, 5⟩ := by decide
theorem test_decode_u16_over_long : answer {} [0xC1, 0x02, 0x00] ⟨0x09, 0, 0, 3⟩ = some ⟨0, false, 0x41, 3⟩ := by decide
theorem test_decode_u16_too_wide : answer {} [0xF2, 0x00, 0x00, 0x01] ⟨0x09, 0, 0, 4⟩ = some ⟨3, false, 0, 4⟩ := by decide
theorem test_decode_u32_short : answer {} [0xF3, 0x78] ⟨0x0A, 0, 0, 2⟩ = some ⟨2, false, 0, 0⟩ := by decide
theorem test_decode_u32_source_example : answer {} [0xDE, 0xE6, 0x55] ⟨0x0A, 0, 0, 3⟩ = some ⟨0, false, 0xABCDE, 3⟩ := by decide
theorem test_decode_u64_large : answer {} [0xF4, 0x00, 0x00, 0x00, 0x00, 0x01] ⟨0x0B, 0, 0, 6⟩ = some ⟨0, false, 0x100000000, 6⟩ := by decide
theorem test_decode_u64_over_long_fits : answer {} [0xF8, 0xFF, 0xFF, 0xFF, 0xFF, 0xFF, 0xFF, 0xFF, 0xFF, 0x00] ⟨0x0B, 0, 0, 10⟩ = some ⟨0, false, 0xFFFFFFFFFFFFFFFF, 10⟩ := by decide
theorem test_decode_u128_largest : answer {} [0xFF, 0xFF, 0xFF, 0xFF, 0xFF, 0xFF, 0xFF, 0xFF, 0xFF, 0xFF, 0xFF, 0xFF, 0xFF, 0xFF, 0xFF, 0xFF, 0xFF] ⟨0x0C, 0, 0, 17⟩ = some ⟨0, false, 0xFFFFFFFFFFFFFFFFFFFFFFFFFFFFFFFF, 17⟩ := by decide
theorem test_decode_u128_short : answer {} [0xFF, 0x00, 0x00, 0x00, 0x00, 0x00, 0x00, 0x00, 0x00, 0x00, 0x00, 0x00, 0x00, 0x00, 0x00, 0x00] ⟨0x0C, 0, 0, 16⟩ = some ⟨2, false, 0, 0⟩ := by decide
theorem test_decode_i8_truncated : answer other [0x80, 0x06] ⟨0x48, 0, 0, 2⟩ = some ⟨0, true, 0x40, 2⟩ := by decide
theorem test_decode_i8_least : answer {} [0xBF, 0x03] ⟨0x48, 0, 0, 2⟩ = some ⟨0, false, 0x80, 2⟩ := by decide
theorem test_decode_i16_negative : answer {} [0x81, 0x02] ⟨0x49, 0, 0, 2⟩ = some ⟨0, false, 0xFFBF, 2⟩ := by decide
theorem test_decode_i16_too_wide : answer {} [0xC0, 0x00, 0x08] ⟨0x49, 0, 0, 3⟩ = some ⟨3, false, 0, 3⟩ := by decide
theorem test_decode_i32_truncated : answer other [0xF4, 0x03, 0x00, 0x00, 0x00, 0x01] ⟨0x4A, 0, 0, 6⟩ = some ⟨0, true, 0xFFFFFFFE, 6⟩ := by decide
theorem test_decode_i32_greatest : answer {} [0xF3, 0xFE, 0xFF, 0xFF, 0xFF] ⟨0x4A, 0, 0, 5⟩ = some ⟨0, false, 0x7FFFFFFF, 5⟩ := by decide
theorem test_decode_i64_negative : answer {} [0x81, 0x02] ⟨0x4B, 0, 0, 2⟩ = some ⟨0, false, 0xFFFFFFFFFFFFFFBF, 2⟩ := by decide
theorem test_decode_i64_too_wide : answer {} [0xF8, 0x00, 0x00, 0x00, 0x00, 0x00, 0x00, 0x00, 0x00, 0x01] ⟨0x4B, 0, 0, 10⟩ = some ⟨3, false, 0, 10⟩ := by decide
theorem test_decode_i128_least : answer {} [0xFF, 0xFF, 0xFF, 0xFF, 0xFF, 0xFF, 0xFF, 0xFF, 0xFF, 0xFF, 0xFF, 0xFF, 0xFF, 0xFF, 0xFF, 0xFF, 0xFF] ⟨0x4C, 0, 0, 17⟩ = some ⟨0, false, 0x80000000000000000000000000000000, 17⟩ := by decide
theorem test_decode_i128_short : answer {} [0xFF, 0xFF, 0xFF, 0xFF, 0xFF, 0xFF, 0xFF, 0xFF, 0xFF, 0xFF, 0xFF, 0xFF, 0xFF, 0xFF, 0xFF, 0xFF] ⟨0x4C, 0, 0, 16⟩ = some ⟨2, false, 0, 0⟩ := by decide
theorem test_decode_f32_one : answer {} [0xBC, 0x07] ⟨0x8A, 0, 0, 2⟩ = some ⟨0, false, 0x3F800000, 2⟩ := by decide
theorem test_decode_f32_truncated : answer other [0xF4, 0xFC, 0x01, 0x00, 0x00, 0x01] ⟨0x8A, 0, 0, 6⟩ = some ⟨0, true, 0x3F800000, 6⟩ := by decide
theorem test_decode_f64_quiet_nan : answer {} [0xBE, 0x7F] ⟨0x8B, 0, 0, 2⟩ = some ⟨0, false, 0x7FF8000000000000, 2⟩ := by decide
theorem test_decode_f64_short : answer {} [0xF7, 0x00] ⟨0x8B, 0, 0, 2⟩ = some ⟨2, false, 0, 0⟩ := by decide

theorem test_zigzag_encode_i8_least : answer {} [] ⟨0xC0, 0x80, 0, 0⟩ = some ⟨0, false, 0xFF, 0⟩ := by decide
theorem test_zigzag_encode_i8_ignores_high_bits : answer {} [] ⟨0xC0, 0xABCDEF3F, 0, 0⟩ = some ⟨0, false, 0x7E, 0⟩ := by decide
theorem test_zigzag_encode_i16_minus_two : answer {} [] ⟨0xC1, 0xFFFE, 0, 0⟩ = some ⟨0, false, 0x3, 0⟩ := by decide
theorem test_zigzag_encode_i16_greatest : answer {} [] ⟨0xC1, 0x7FFF, 0, 0⟩ = some ⟨0, false, 0xFFFE, 0⟩ := by decide
theorem test_zigzag_encode_i32_minus_65 : answer {} [] ⟨0xC2, 0xFFFFFFBF, 0, 0⟩ = some ⟨0, false, 0x81, 0⟩ := by decide
theorem test_zigzag_encode_i32_least : answer {} [] ⟨0xC2, 0x80000000, 0, 0⟩ = some ⟨0, false, 0xFFFFFFFF, 0⟩ := by decide
theorem test_zigzag_encode_i64_sixty_four : answer {} [] ⟨0xC3, 0x40, 0, 0⟩ = some ⟨0, false, 0x80, 0⟩ := by decide
theorem test_zigzag_encode_i64_least : answer {} [] ⟨0xC3, 0x8000000000000000, 0, 0⟩ = some ⟨0, false, 0xFFFFFFFFFFFFFFFF, 0⟩ := by decide
theorem test_zigzag_encode_i128_minus_one : answer {} [] ⟨0xC4, 0xFFFFFFFFFFFFFFFFFFFFFFFFFFFFFFFF, 0, 0⟩ = some ⟨0, false, 0x1, 0⟩ := by decide
theorem test_zigzag_encode_i128_greatest : answer {} [] ⟨0xC4, 0x7FFFFFFFFFFFFFFFFFFFFFFFFFFFFFFF, 0, 0⟩ = some ⟨0, false, 0xFFFFFFFFFFFFFFFFFFFFFFFFFFFFFFFE, 0⟩ := by decide
theorem test_zigzag_decode_i8_least : answer {} [] ⟨0xC8, 0xFF, 0, 0⟩ = some ⟨0, false, 0x80, 0⟩ := by decide
theorem test_zigzag_decode_i8_greatest : answer {} [] ⟨0xC8, 0xFE, 0, 0⟩ = some ⟨0, false, 0x7F, 0⟩ := by decide
theorem test_zigzag_decode_i16_minus_two : answer {} [] ⟨0xC9, 0x3, 0, 0⟩ = some ⟨0, false, 0xFFFE, 0⟩ := by decide
theorem test_zigzag_decode_i16_least : answer {} [] ⟨0xC9, 0xFFFF, 0, 0⟩ = some ⟨0, false, 0x8000, 0⟩ := by decide
theorem test_zigzag_decode_i32_minus_65 : answer {} [] ⟨0xCA, 0x81, 0, 0⟩ = some ⟨0, false, 0xFFFFFFBF, 0⟩ := by decide
theorem test_zigzag_decode_i32_least : answer {} [] ⟨0xCA, 0xFFFFFFFF, 0, 0⟩ = some ⟨0, false, 0x80000000, 0⟩ := by decide
theorem test_zigzag_decode_i64_minus_one : answer {} [] ⟨0xCB, 0x1, 0, 0⟩ = some ⟨0, false, 0xFFFFFFFFFFFFFFFF, 0⟩ := by decide
theorem test_zigzag_decode_i64_sixty_four : answer {} [] ⟨0xCB, 0x80, 0, 0⟩ = some ⟨0, false, 0x40, 0⟩ := by decide
theorem test_zigzag_decode_i128_two : answer {} [] ⟨0xCC, 0x4, 0, 0⟩ = some ⟨0, false, 0x2, 0⟩ := by decide
theorem test_zigzag_decode_i128_least : answer {} [] ⟨0xCC, 0xFFFFFFFFFFFFFFFFFFFFFFFFFFFFFFFF, 0, 0⟩ = some ⟨0, false, 0x80000000000000000000000000000000, 0⟩ := by decide
theorem test_bitrev_encode_f32_signalling_nan : answer {} [] ⟨0xD2, 0x7F800001, 0, 0⟩ = some ⟨0, false, 0x800001FE, 0⟩ := by decide
theorem test_bitrev_encode_f32_pattern : answer {} [] ⟨0xD2, 0x12345678, 0, 0⟩ = some ⟨0, false, 0x1E6A2C48, 0⟩ := by decide
theorem test_bitrev_encode_f64_one : answer {} [] ⟨0xD3, 0x3FF0000000000000, 0, 0⟩ = some ⟨0, false, 0xFFC, 0⟩ := by decide
theorem test_bitrev_encode_f64_pattern : answer {} [] ⟨0xD3, 0x0123456789ABCDEF, 0, 0⟩ = some ⟨0, false, 0xF7B3D591E6A2C480, 0⟩ := by decide
theorem test_bitrev_decode_f32_one : answer {} [] ⟨0xDA, 0x1FC, 0, 0⟩ = some ⟨0, false, 0x3F800000, 0⟩ := by decide
theorem test_bitrev_decode_f32_subnormal : answer {} [] ⟨0xDA, 0x80000000, 0, 0⟩ = some ⟨0, false, 0x1, 0⟩ := by decide
theorem test_bitrev_decode_f64_one : answer {} [] ⟨0xDB, 0xFFC, 0, 0⟩ = some ⟨0, false, 0x3FF0000000000000, 0⟩ := by decide
theorem test_bitrev_decode_f64_minus_zero : answer {} [] ⟨0xDB, 0x1, 0, 0⟩ = some ⟨0, false, 0x8000000000000000, 0⟩ := by decide

/-- `.req 0x05, 0, 0` of program P4. -/
theorem test_illegal_code : answer other [0x80, 0x04, 0x05] ⟨0x05, 0, 0, 3⟩ = some ⟨4, false, 0, 0⟩ := by decide

/-! ## The machine around the operations -/

theorem test_reset_meets_inv : Inv State.reset := by decide
theorem test_race_stops : step (busy {} [] ⟨0x00, 1, 0, 2⟩ [.write 1 7]) = .fault (.race 1) := by rfl
theorem test_read_of_a_decode_region_stops : step (busy {} [5, 6] ⟨0x08, 0, 0, 2⟩ [.read 1]) = .fault (.race 1) := by rfl
theorem test_unwritten_response_stops : step { State.reset with inputs := [.readResponse] } = .fault .unwrittenResponse := by rfl
theorem test_bad_status_stops :
    step { State.reset with inputs := [.readResponse], rsp := some ⟨5, false, 0, 0⟩ } = .fault (.badStatus 5) := by rfl
theorem test_skip_failed_moves_by_n :
    step { State.reset with cursor := 25, inputs := [.skipFailed], rsp := some ⟨3, false, 0, 4⟩ } =
      .next { State.reset with cursor := 29, rsp := some ⟨3, false, 0, 4⟩ } := by rfl
theorem test_reset_during_request_gives_no_response :
    (match step (busy {} [] ⟨0x00, 5, 0, 2⟩ [.reset]) with | .next t => some (t.trans, t.rsp, t.responses) | _ => none) =
      some (.idle, none, []) := by rfl
theorem test_write_keeps_the_canonical_form : Memory.write (Memory.write [] 3 7) 3 Memory.unlisted = [] := by decide

/-! ## Program lines (95_test_vectors.md section 3) -/

/-- Lines 1 to 3 of program P1, with a comment line between. -/
theorem test_assemble_P1 :
    assemble 32 ["encode_u32 0, 0x12345678", "; the next value", "encode_i16 5, -2 ; signed", "encode_f32 6, 0x3F800000"] =
      .ok [⟨0x02, 0x12345678, 0, 32⟩, ⟨0x41, 0xFFFE, 5, 32⟩, ⟨0x82, 0x3F800000, 6, 32⟩] := by rfl
/-- Lines 1, 5, 6 and 7 of program P4. -/
theorem test_assemble_P4 :
    assemble 3 ["decode_u8 0", "zigzag_encode_i32 0x80000000", "bitrev_decode_f64 0xFFC", ".req 0x05, 0, 0"] =
      .ok [⟨0x08, 0, 0, 3⟩, ⟨0xC2, 0x80000000, 0, 3⟩, ⟨0xDB, 0xFFC, 0, 3⟩, ⟨0x05, 0, 0, 3⟩] := by rfl
/-- The model's choice of log 14: a raw code may be decimal, and has at most 8 bits. -/
theorem test_assemble_raw_code_decimal : assemble 3 [".req 255, 0, 0"] = .ok [⟨0xFF, 0, 0, 3⟩] := by rfl
theorem test_assemble_refuses_a_wide_raw_code : assemble 3 [".req 256, 0, 0"] = .error .badNumber := by rfl
theorem test_assemble_refuses_an_unknown_mnemonic : assemble 3 ["ENCODE_U8 0, 1"] = .error .unknownMnemonic := by rfl
theorem test_assemble_refuses_a_missing_operand : assemble 3 ["encode_u8 0"] = .error .wrongOperands := by rfl
theorem test_assemble_refuses_a_bad_number : assemble 3 ["decode_u8 1G"] = .error .badNumber := by rfl
theorem test_assemble_refuses_a_decimal_float : assemble 9 ["encode_f32 0, 1"] = .error (.literal .decimalFloat) := by rfl

/-! ## Something meets the hypotheses of each obligation that has any -/

theorem witness_IllegalCodesAreThoseOfTheFields :
    decode ⟨0x20, 9, 1, 4⟩ = .error .reservedBit ∧ decode ⟨0x10, 9, 1, 4⟩ = .error .mapOutsideRaw ∧
    decode ⟨0x05, 9, 1, 4⟩ = .error .widthCode ∧ decode ⟨0x06, 9, 1, 4⟩ = .error .widthCode ∧ decode ⟨0xCF, 9, 1, 4⟩ = .error .widthCode ∧
    decode ⟨0x84, 9, 1, 4⟩ = .error .floatWidth ∧ decode ⟨0xD1, 9, 1, 4⟩ = .error .floatWidth := by decide

theorem witness_IllegalCodeIsAnswered :
    (busy {} [1, 2] ⟨0x05, 9, 0, 2⟩ []).trans = .busy ⟨0x05, 9, 0, 2⟩ ∧ (busy {} [1, 2] ⟨0x05, 9, 0, 2⟩ []).intrusions = [] ∧
    (0x05#8).toNat ∉ legalCodes := by decide

theorem witness_EncodeInvertsDecode :
    decode ⟨0x04, 9, 1, 4⟩ = .ok (.encodeU128 9 1 4) ∧ decode ⟨0x0C, 9, 1, 4⟩ = .ok (.decodeU128 1 4) ∧
    decode ⟨0xDB, 9, 1, 4⟩ = .ok (.bitrevDecodeF64 9) := by decide

theorem witness_StepRunsTheDecodedOperation :
    (busy {} [] ⟨0x40, 9, 1, 4⟩ []).trans = .busy ⟨0x40, 9, 1, 4⟩ ∧ (busy {} [] ⟨0x40, 9, 1, 4⟩ []).intrusions = [] ∧
    decode ⟨0x40, 9, 1, 4⟩ = .ok (.encodeI8 9 1 4) := by decide

theorem witness_PrefixByteFixesShapeAndLength :
    (0x7F#8).toNat < 0x80 ∧ (0x80 ≤ (0x80#8).toNat ∧ (0x80#8).toNat < 0xC0) ∧ (0xC0 ≤ (0xC0#8).toNat ∧ (0xC0#8).toNat < 0xE0) ∧
    (0xE0 ≤ (0xE0#8).toNat ∧ (0xE0#8).toNat < 0xF0) ∧ 0xF0 ≤ (0xF0#8).toNat ∧ 0xF0 ≤ (0xFF#8).toNat := by decide

theorem witness_CanonicalLengthIsTheTable :
    (2 ^ 7 - 1 < 2 ^ 7 ∧ encLen (2 ^ 7 - 1) = 1) ∧ (2 ^ 7 ≤ 2 ^ 7 ∧ encLen (2 ^ 7) = 2) ∧ encLen (2 ^ 14) = 3 ∧ encLen (2 ^ 21) = 4 ∧
    (8 * (4 - 1) < 28 ∧ 2 ^ 28 < 2 ^ (8 * 4) ∧ encLen (2 ^ 28) = 4 + 1) ∧
    (2 ^ (8 * (16 - 1)) ≤ 2 ^ 128 - 1 ∧ 2 ^ 128 - 1 < 2 ^ (8 * 16) ∧ encLen (2 ^ 128 - 1) = 16 + 1) := by decide

theorem witness_CompactnessIsMonotonic : (127 < 128 ∧ 128 < 2 ^ 128) ∧ ((8, .encodeU8) ∈ encodes) :=
  ⟨by decide, by simp [encodes, unsignedEncodes]⟩

theorem witness_LongestEncodingPerWidth : 8 ∈ [8, 16, 32, 64, 128] ∧ 255 < 2 ^ 8 ∧ 128 ∈ [8, 16, 32, 64, 128] ∧ 2 ^ 128 - 1 < 2 ^ 128 := by
  decide

theorem witness_CanonicalIsShortest :
    [(0x03 : Byte)].length + 1 = encTotalLen 0xBF ∧ (2 ^ 7 ≤ 128 ∧ 128 < 2 ^ 8) ∧ (2 ^ 14 ≤ 2 ^ 16 - 1 ∧ 2 ^ 16 - 1 < 2 ^ 16) ∧
    (2 ^ 21 ≤ 2 ^ 21 ∧ 2 ^ 21 < 2 ^ 24) := by decide

theorem witness_PayloadIsAssembledLittleEndian :
    ([] : List Byte).length + 1 = encTotalLen 0x7F ∧ [(0xE6 : Byte), 0x55].length + 1 = encTotalLen 0xDE ∧
    (List.replicate 16 (0xFF : Byte)).length + 1 = encTotalLen 0xFF := by decide

theorem witness_NoWidthMismatchAt128 :
    ((List.replicate 16 (0xFF : Byte)).length + 1 = encTotalLen 0xFF ∧ classify 0xFF = .large 16) ∧
    ([(0xFF : Byte), 0xFF, 0xFF].length + 1 = encTotalLen 0xEF ∧ classify 0xEF = .medium 4) := by decide

/-- A buffer of 2 bytes has just the room `encode_u8` asks for under MAX_LEN; a buffer of 1 byte has the room 5 needs under EXACT. -/
theorem witness_UnsignedEncodeWritesCanonical :
    ((8, .encodeU8) ∈ unsignedEncodes ∧ Room {} (maxLenOf 8) 0 2 ((0xC1#128).toNat % 2 ^ 8)) ∧
    ((128, .encodeU128) ∈ unsignedEncodes ∧ Room other (maxLenOf 128) 0 1 ((5#128).toNat % 2 ^ 128)) :=
  ⟨⟨by simp [unsignedEncodes], by unfold Room; decide⟩, ⟨by simp [unsignedEncodes], by unfold Room; decide⟩⟩

theorem witness_SignedEncodeWritesZigzag :
    (8, .encodeI8) ∈ signedEncodes ∧ ((255 : Nat) : Int) = zigzagNumber ((0x80#128).setWidth 8).toInt ∧ Room {} (maxLenOf 8) 0 2 255 :=
  ⟨by simp [signedEncodes], by decide, by unfold Room; decide⟩

theorem witness_FloatEncodeWritesReversed :
    (32, .encodeF32) ∈ floatEncodes ∧ Reversed ((0x3F800000#128).setWidth 32) 0x1FC#32 ∧ Room {} (maxLenOf 32) 0 5 (0x1FC#32).toNat :=
  ⟨by simp [floatEncodes], by unfold Reversed; decide, by unfold Room; decide⟩

/-- One byte too few under MAX_LEN, one byte too few under EXACT, and `off` past `len`. -/
theorem witness_EncodeWithoutRoomWritesNothing :
    ¬ Room {} (maxLenOf 8) 0 1 ((5#128).toNat % 2 ^ 8) ∧ ¬ Room other (maxLenOf 8) 0 1 ((0x80#128).toNat % 2 ^ 8) ∧
    ¬ Room other (maxLenOf 8) 3 2 ((0#128).toNat % 2 ^ 8) ∧
    (((255 : Nat) : Int) = zigzagNumber ((0x80#128).setWidth 8).toInt ∧ ¬ Room {} (maxLenOf 8) 0 1 255) ∧
    (Reversed ((0x3F800000#128).setWidth 32) 0x1FC#32 ∧ ¬ Room {} (maxLenOf 32) 0 4 (0x1FC#32).toNat) := by
  unfold Room Reversed; decide

theorem witness_CapacityCheckDecidesSuccess : State.reset.build.capacityRule = .maxLen ∧ (busy other [] ⟨0, 0, 0, 0⟩ []).build.capacityRule = .exact := by
  decide

theorem witness_OnlyTheOperandsWidthCounts :
    (0xAB05#128).toNat % 2 ^ 8 = (0x05#128).toNat % 2 ^ 8 ∧ 0xAB05#128 ≠ 0x05#128 ∧ (8, .encodeU8) ∈ encodes ∧
    (8, .zigzagEncodeI8) ∈ zigzagEncodes ++ zigzagDecodes ++ bitReversals ∧ (8, .decodeU8) ∈ decodes :=
  ⟨by decide, by decide, by simp [encodes, unsignedEncodes], by simp [zigzagEncodes], by simp [decodes, unsignedDecodes]⟩

/-- A state with the given bytes and build. -/
def holding (b : Build) (bytes : List Byte) : State := busy b bytes ⟨0, 0, 0, 0⟩ []

/-- The largest number of the width, and the last byte of the buffer as the last byte of the encoding. -/
theorem witness_UnsignedDecodeAnswersTheNumber :
    (8, .decodeU8) ∈ unsignedDecodes ∧ Complete (holding {} [0xF0, 0xFF]) 0 2 ∧ valueAt (holding {} [0xF0, 0xFF]) 0 < 2 ^ 8 :=
  ⟨by simp [unsignedDecodes], by unfold Complete; decide, by decide⟩

theorem witness_SignedDecodeAnswersTheSignedValue :
    (8, .decodeI8) ∈ signedDecodes ∧ Complete (holding {} [0xBF, 0x03]) 0 2 ∧ valueAt (holding {} [0xBF, 0x03]) 0 < 2 ^ 8 :=
  ⟨by simp [signedDecodes], by unfold Complete; decide, by decide⟩

theorem witness_FloatDecodeAnswersThePattern :
    (32, .decodeF32) ∈ floatDecodes ∧ Complete (holding {} [0xBC, 0x07]) 0 2 ∧ valueAt (holding {} [0xBC, 0x07]) 0 < 2 ^ 32 :=
  ⟨by simp [floatDecodes], by unfold Complete; decide, by decide⟩

/-- No byte 0, and one byte short. -/
theorem witness_ShortBufferIsAnswered :
    ¬ Complete (holding {} []) 0 0 ∧ ¬ Complete (holding {} [0xBF]) 0 1 ∧ (8, .decodeU8) ∈ decodes :=
  ⟨by unfold Complete; decide, by unfold Complete; decide, by simp [decodes, unsignedDecodes]⟩

theorem witness_TooWideIsRejected :
    (8, .decodeI8) ∈ decodes ∧ 8 < 128 ∧ Complete (holding {} [0x80, 0x04]) 0 2 ∧ 2 ^ 8 ≤ valueAt (holding {} [0x80, 0x04]) 0 ∧
    (holding {} [0x80, 0x04]).build.widthPolicy = .reject :=
  ⟨by simp [decodes, signedDecodes], by decide, by unfold Complete; decide, by decide, by decide⟩

theorem witness_TooWideIsTruncatedAndFlagged :
    (Complete (holding other [0x80, 0x06]) 0 2 ∧ 2 ^ 8 ≤ valueAt (holding other [0x80, 0x06]) 0) ∧
    (Complete (holding other [0xF4, 0, 0, 0, 0, 1]) 0 6 ∧ 2 ^ 32 ≤ valueAt (holding other [0xF4, 0, 0, 0, 0, 1]) 0) ∧
    (holding other [0x80, 0x06]).build.widthPolicy = .truncate ∧ (8, .decodeU8) ∈ unsignedDecodes ∧ (8, .decodeI8) ∈ signedDecodes ∧
    (32, .decodeF32) ∈ floatDecodes :=
  ⟨by unfold Complete; decide, by unfold Complete; decide, by decide, by simp [unsignedDecodes], by simp [signedDecodes], by simp [floatDecodes]⟩

theorem witness_DecodeWritesNothing : (64, .decodeF64) ∈ decodes := by simp [decodes, floatDecodes]

/-- Two buffers that agree on the two bytes of the encoding and differ after it; and two that differ in the region of an incomplete one. -/
theorem witness_DecodeReadsOnlyItsEncoding :
    ((holding {} [0x80, 2, 3]).buf.read 0 = (holding {} [0x80, 2, 4]).buf.read 0 ∧
      (∀ x, 0 < x → x < 0 + lengthAt (holding {} [0x80, 2, 3]) 0 → (holding {} [0x80, 2, 3]).buf.read x = (holding {} [0x80, 2, 4]).buf.read x)) ∧
    ((holding {} [0xC0, 2]).buf.read 0 = (holding {} [0xC0, 3]).buf.read 0 ∧ ¬ 0 + lengthAt (holding {} [0xC0, 2]) 0 ≤ 2) := by
  refine ⟨⟨by decide, fun x h1 h2 => ?_⟩, by decide, by decide⟩
  have hl : lengthAt (holding {} [0x80, 2, 3]) 0 = 2 := by decide
  obtain rfl : x = 1 := by omega
  decide

theorem witness_NoSilentNarrowing :
    (8, .decodeU8) ∈ unsignedDecodes ∧ answer {} [0x80, 0x02] ⟨0x08, 0, 0, 2⟩ = some ⟨0, false, 0x80, 2⟩ :=
  ⟨by simp [unsignedDecodes], by decide⟩

theorem witness_ZigzagOperationsAnswer : (8, .zigzagEncodeI8) ∈ zigzagEncodes ∧ (128, .zigzagDecodeI128) ∈ zigzagDecodes :=
  ⟨by simp [zigzagEncodes], by simp [zigzagDecodes]⟩

theorem witness_ZigzagExtremes :
    8 ∈ [8, 16, 32, 64, 128] ∧ (0x7F#8).toInt = 2 ^ (8 - 1) - 1 ∧ (0x80#8).toInt = -2 ^ (8 - 1) ∧
    (-64 < (0xC1#8).toInt ∧ (0xC1#8).toInt < 64) ∧ (-64 < (0x3F#8).toInt ∧ (0x3F#8).toInt < 64) := by decide

theorem witness_BitReversalOperationsAnswer : (32, .bitrevEncodeF32) ∈ bitReversals ∧ (64, .bitrevDecodeF64) ∈ bitReversals :=
  ⟨by simp [bitReversals], by simp [bitReversals]⟩

/-- `encode_u8` of 0xC1 in 2 bytes succeeds; its own next state serves as the state the decode runs on. -/
theorem witness_UnsignedRoundTrip :
    (8, .encodeU8) ∈ unsignedEncodes ∧ (8, .decodeU8) ∈ unsignedDecodes ∧
    ∃ (t : State) (p : Response), exec (.encodeU8 0xC1 0 2) (holding {} []) = .next t ∧ t.rsp = some p ∧ p.status = 0 ∧
      0 + wireLen ((0xC1#128).toNat % 2 ^ 8) ≤ 2 :=
  ⟨by simp [unsignedEncodes], by simp [unsignedDecodes], _, _, rfl, rfl, by decide, by decide⟩

theorem witness_CompositeRoundTrip :
    ((8, .encodeI8) ∈ signedEncodes ∧ (8, .decodeI8) ∈ signedDecodes ∧ ((255 : Nat) : Int) = zigzagNumber ((0x80#128).setWidth 8).toInt ∧
      ∃ (t : State) (p : Response), exec (.encodeI8 0x80 0 2) (holding {} []) = .next t ∧ t.rsp = some p ∧ p.status = 0 ∧
        0 + wireLen 255 ≤ 2) ∧
    ((32, .encodeF32) ∈ floatEncodes ∧ (32, .decodeF32) ∈ floatDecodes ∧ Reversed ((0x3F800000#128).setWidth 32) 0x1FC#32 ∧
      ∃ (t : State) (p : Response), exec (.encodeF32 0x3F800000 0 5) (holding {} []) = .next t ∧ t.rsp = some p ∧ p.status = 0 ∧
        0 + wireLen (0x1FC#32).toNat ≤ 5) :=
  ⟨⟨by simp [signedEncodes], by simp [signedDecodes], by decide, _, _, rfl, rfl, by decide, by decide⟩,
    by simp [floatEncodes], by simp [floatDecodes], by unfold Reversed; decide, _, _, rfl, rfl, by decide, by decide⟩

theorem witness_StatusesByFamily :
    (8, .encodeU8) ∈ encodes ∧ (8, .decodeU8) ∈ decodes ∧ (8, .zigzagEncodeI8) ∈ zigzagEncodes ++ zigzagDecodes ++ bitReversals :=
  ⟨by simp [encodes, unsignedEncodes], by simp [decodes, unsignedDecodes], by simp [zigzagEncodes]⟩

/-- A failure with ERR_WIDTH and one with another status. -/
theorem witness_FailuresCarryNoValue :
    answer {} [0x80, 0x04] ⟨0x08, 0, 0, 2⟩ = some ⟨3, false, 0, 2⟩ ∧ answer {} [0x80] ⟨0x08, 0, 0, 1⟩ = some ⟨2, false, 0, 0⟩ := by decide

theorem witness_FailuresArePrecise : answer {} [0xEE] ⟨0x00, 5, 0, 1⟩ = some ⟨1, false, 0, 0⟩ := by decide

/-- Two buffers that agree on a region of two bytes and differ beside it. -/
theorem witness_NoHiddenState :
    (holding {} [9, 1, 2, 9]).build = (holding {} [8, 1, 2, 8]).build ∧
    ∀ x, 1 ≤ x → x < 3 → (holding {} [9, 1, 2, 9]).buf.read x = (holding {} [8, 1, 2, 8]).buf.read x := by
  refine ⟨by decide, fun x h1 h2 => ?_⟩
  have : x = 1 ∨ x = 2 := by omega
  rcases this with rfl | rfl <;> decide

theorem witness_BytesOutsideTheRegionStay : 0 < (⟨0x00, 5, 1, 3⟩ : Request).off ∧ (⟨0x00, 5, 1, 3⟩ : Request).len ≤ 3 := by decide

/-- Two regions that touch but do not overlap. -/
theorem witness_DisjointRequestsCommute : (⟨0x00, 5, 0, 2⟩ : Request).len ≤ (⟨0x00, 6, 2, 4⟩ : Request).off := by decide

theorem witness_StepKeepsTheInvariant :
    Inv (busy {} [1, 2] ⟨0x00, 0xC1, 0, 2⟩ []) ∧ ∃ t, step (busy {} [1, 2] ⟨0x00, 0xC1, 0, 2⟩ []) = .next t := ⟨by decide, _, rfl⟩

theorem witness_BuildParametersNeverChange : ∃ t, step (busy other [1, 2] ⟨0x00, 0xC1, 0, 2⟩ []) = .next t := ⟨_, rfl⟩

/-- An IDLE state with a response, a buffer, a cursor, and a move of the host to come. -/
def idleWith (m : HostMove) : State :=
  { State.reset with rsp := some ⟨3, false, 0, 2⟩, responses := [⟨3, false, 0, 2⟩], buf := [(0, 7)], cursor := 4, inputs := [m] }

theorem witness_ResetClearsOnlyTheBlock : (idleWith .reset).trans = .idle ∧ (idleWith .reset).inputs = .reset :: [] := by decide

theorem witness_ResetAbandonsTheRequest :
    (busy {} [] ⟨0x00, 5, 0, 2⟩ [.reset]).trans = .busy ⟨0x00, 5, 0, 2⟩ ∧ (busy {} [] ⟨0x00, 5, 0, 2⟩ [.reset]).intrusions = .reset :: [] ∧
    decode ⟨0x00, 5, 0, 2⟩ = .ok (.encodeU8 5 0 2) ∧ decode ⟨0x08, 5, 0, 2⟩ = .ok (.decodeU8 0 2) ∧ (Instr.decodeU8 0 2).form ≠ .memEnc := by
  decide

theorem witness_UnwrittenResponseFaults :
    ({ State.reset with inputs := [.readResponse] } : State).trans = .idle ∧
    ({ State.reset with inputs := [.readResponse] } : State).inputs = .readResponse :: [] ∧
    ({ State.reset with inputs := [.readResponse] } : State).rsp = none := by decide

/-- The first and last byte of the region, of an encode and of a decode, for the accesses that race; an illegal code, a mapping, the byte
below and the byte above for those that do not. -/
theorem witness_RacesFault :
    decode ⟨0x00, 5, 1, 3⟩ = .ok (.encodeU8 5 1 3) ∧ decode ⟨0x08, 5, 1, 3⟩ = .ok (.decodeU8 1 3) ∧ decode ⟨0xC0, 5, 1, 3⟩ = .ok (.zigzagEncodeI8 5) ∧
    decode ⟨0x05, 5, 1, 3⟩ = .error .widthCode ∧
    (∀ addr ∈ [1, 2], (Instr.encodeU8 5 1 3).form ≠ .map ∧ (Instr.decodeU8 1 3).form ≠ .map ∧ 1 ≤ addr ∧ addr < 3) ∧
    (Instr.zigzagEncodeI8 5).form = .map ∧ (∀ addr ∈ [0, 3], addr < 1 ∨ 3 ≤ addr) ∧
    (∀ op ∈ [0x00#8, 0x08, 0xC0, 0x05], ∀ e ∈ [Intrusion.write 1 9, .read 2, .write 0 9, .read 3],
      (busy {} [] ⟨op, 5, 1, 3⟩ [e]).trans = .busy ⟨op, 5, 1, 3⟩ ∧ (busy {} [] ⟨op, 5, 1, 3⟩ [e]).intrusions = [e]) := by decide

theorem witness_OneRequestAtATime :
    ((idleWith (.request ⟨0x00, 5, 0, 2⟩ [])).trans = .idle ∧
      (idleWith (.request ⟨0x00, 5, 0, 2⟩ [])).inputs = .request ⟨0x00, 5, 0, 2⟩ [] :: []) ∧
    (∃ t, step (busy {} [] ⟨0x00, 5, 0, 2⟩ []) = .next t ∧ t.trans = .idle) ∧
    ∃ t, step (busy {} [] ⟨0x00, 5, 0, 2⟩ [.read 2]) = .next t ∧ t.trans = .busy ⟨0x00, 5, 0, 2⟩ :=
  ⟨by decide, ⟨_, rfl, rfl⟩, _, rfl, rfl⟩

theorem witness_AcceptedRequestCompletes :
    (busy {} [] ⟨0x08, 0, 1, 3⟩ [.write 0 9, .write 3 9, .read 0]).trans = .busy ⟨0x08, 0, 1, 3⟩ ∧
    ∀ e ∈ (busy {} [] ⟨0x08, 0, 1, 3⟩ [.write 0 9, .write 3 9, .read 0]).intrusions, Benign ⟨0x08, 0, 1, 3⟩ e := by
  refine ⟨by decide, fun e he => ?_⟩
  have : e = .write 0 9 ∨ e = .write 3 9 ∨ e = .read 0 := by simpa [busy] using he
  rcases this with rfl | rfl | rfl <;> rfl

theorem witness_CursorIsThreaded :
    ((busy {} [5] ⟨0x08, 0, 0, 1⟩ []).trans = .busy ⟨0x08, 0, 0, 1⟩ ∧ (busy {} [5] ⟨0x08, 0, 0, 1⟩ []).intrusions = [] ∧
      decode ⟨0x08, 0, 0, 1⟩ = .ok (.decodeU8 0 1)) ∧
    ((idleWith (.requestAtCursor 0x08 0 9 [])).trans = .idle ∧
      (idleWith (.requestAtCursor 0x08 0 9 [])).inputs = .requestAtCursor 0x08 0 9 [] :: []) ∧
    ((idleWith .skipFailed).trans = .idle ∧ (idleWith .skipFailed).inputs = .skipFailed :: [] ∧
      (idleWith .skipFailed).rsp = some ⟨3, false, 0, 2⟩ ∧ (3 : BitVec 3) ≠ 0) := by decide

theorem witness_IdleBlockWaits : State.reset.trans = .idle ∧ State.reset.inputs = [] := by decide

theorem witness_HostMovesGoThrough :
    (∀ m ∈ [HostMove.writeByte 3 9, .readByte 3, .setCursor 6, .readResponse], (idleWith m).trans = .idle ∧ (idleWith m).inputs = m :: []) ∧
    (idleWith .readResponse).rsp = some ⟨3, false, 0, 2⟩ ∧ (4 : BitVec 3).toNat ≤ 4 ∧ 4 < (5 : BitVec 3).toNat := by decide

theorem witness_EveryPresentedRequestIsAnswered :
    (⟨.idle, none, {}, [], 0, [], programMoves [⟨0x00, 5, 0, 2⟩, ⟨0x05, 0, 0, 2⟩], [], 0⟩ : State).trans = .idle ∧
    (⟨.idle, none, {}, [], 0, [], programMoves [⟨0x00, 5, 0, 2⟩, ⟨0x05, 0, 0, 2⟩], [], 0⟩ : State).inputs =
      programMoves [⟨0x00, 5, 0, 2⟩, ⟨0x05, 0, 0, 2⟩] := by decide

theorem witness_AssembledLineAsksForItsOperation :
    ((Instr.encodeU8 0 0 0).form = .memEnc ∧ 0xFF < 2 ^ (Instr.encodeU8 0 0 0).width ∧ 2 ^ (Instr.encodeU8 0 0 0).width ≤ 0x100) ∧
    (Instr.decodeU8 0 0).form = .memDec ∧ ((Instr.bitrevEncodeF32 0).form = .map ∧ 0xFFFFFFFF < 2 ^ (Instr.bitrevEncodeF32 0).width) ∧
    2 ^ (Instr.bitrevEncodeF32 0).width ≤ 0x100000000 ∧ 255 < 256 ∧ 2 ^ 128 - 1 < 2 ^ 128 ∧ 2 ^ 128 ≤ 2 ^ 128 := by decide

theorem witness_DecimalLiterals :
    (-2 ^ (8 - 1) ≤ (-128 : Int) ∧ (127 : Int) < 2 ^ (8 - 1)) ∧ ((-129 : Int) < -2 ^ (8 - 1) ∧ (2 : Int) ^ (8 - 1) ≤ 128) ∧
    ((0 : Int) ≤ 255 ∧ (255 : Int) < 2 ^ 8) ∧ (2 : Int) ^ 8 ≤ 256 ∧ (-1 : Int) < 0 ∧ 8 ∈ [8, 16, 32, 64, 128] := by decide

end Sys2Proof.Tests
end

section
/-! The response port before any response (R30): the step of an IDLE block is the host's next move, and reading an empty port faults. -/

namespace Sys2Proof.Machine

/-- An IDLE step with a move to come makes that move. -/
theorem step_of_idle_cons {s : State} {m : HostMove} {ms : List HostMove} (h : s.trans = .idle) (hi : s.inputs = m :: ms) :
    step s = hostMove m { s with inputs := ms } := by
  rw [step_of_idle h, hi]

/-- Reading the response port while it is empty is a fault (R30); no value is returned. -/
theorem hostMove_readResponse_of_rsp_none {s : State} (h : s.rsp = none) :
    hostMove .readResponse s = .fault .unwrittenResponse := by
  simp only [hostMove, h]

/-- Right after reset the response port is empty (R30). -/
theorem rsp_reset : State.reset.rsp = none := rfl

/-- Settles O49: the IDLE step is the host's read, and the read finds the port empty. -/
theorem unwrittenResponseFaults : Obligations.UnwrittenResponseFaults := by
  unfold Obligations.UnwrittenResponseFaults
  refine ⟨rsp_reset, fun s ms hidle hin hrsp => ?_⟩
  calc step s = hostMove .readResponse { s with inputs := ms } := step_of_idle_cons hidle hin
    _ = .fault .unwrittenResponse := hostMove_readResponse_of_rsp_none hrsp

end Sys2Proof.Machine
end

section
/-! The operation codes (30_encoding.md Part B): which codes are legal (R62), which fields make a code illegal (R63), and the answer to an
illegal one (R141). -/

namespace Sys2Proof.Machine

open Sys2Proof.Safety

/-! ## The codes that decode (R62) -/

/-- A request decodes to an operation of the request's own code. -/
theorem opcode_of_decode {r : Request} {i : Instr} (h : decode r = .ok i) : opcode i = r.op := by
  unfold decode at h
  split at h
  case h_39 => nomatch h
  all_goals next hop => cases h; exact hop.symm

theorem opcode_toNat_mem_legalCodes (i : Instr) : (opcode i).toNat ∈ legalCodes := by
  cases i <;> simp [opcode, legalCodes]

/-- Whether a request decodes rests on its code alone. -/
theorem decode_isOk_eq (op : BitVec 8) (a : Word) (off len : Nat) : (decode ⟨op, a, off, len⟩).isOk = (decode ⟨op, 0, 0, 0⟩).isOk := by
  unfold decode
  dsimp only
  split <;> rfl

theorem decode_isOk_of_mem_legalCodes : ∀ c ∈ legalCodes, (decode ⟨BitVec.ofNat 8 c, 0, 0, 0⟩).isOk = true := by
  decide

theorem exists_decode_ok_iff (r : Request) : (∃ i, decode r = .ok i) ↔ r.op.toNat ∈ legalCodes := by
  constructor
  · rintro ⟨i, h⟩
    rw [← opcode_of_decode h]
    exact opcode_toNat_mem_legalCodes i
  · intro hmem
    have hok : (decode r).isOk = true := by
      rw [decode_isOk_eq, ← decode_isOk_of_mem_legalCodes _ hmem, BitVec.ofNat_toNat, BitVec.setWidth_eq]
    cases h : decode r with
    | ok i => exact ⟨i, rfl⟩
    | error e => rw [h] at hok; nomatch hok

theorem exists_decode_error_iff (r : Request) : (∃ e, decode r = .error e) ↔ r.op.toNat ∉ legalCodes := by
  rw [← exists_decode_ok_iff]
  cases decode r <;> simp

/-- Settles O1: row by row, and the codes that decode are the codes of the operations. -/
theorem opcodeMapIsTheTable : Obligations.OpcodeMapIsTheTable := by
  unfold Obligations.OpcodeMapIsTheTable
  refine ⟨fun a off len => ?_, exists_decode_ok_iff⟩
  and_intros <;> rfl

/-! ## The codes that do not (R63) -/

/-- The four rules of R63 over the fields of R61: `rsv` is 1; `map` is 1 outside `cls = 11`; `wc` is 101, 110 or 111; a float or
bit-reversal code of a width other than 32 and 64. -/
abbrev IllegalFields (op : Nat) : Prop :=
  op / 32 % 2 = 1 ∨ (op / 16 % 2 = 1 ∧ op / 64 ≠ 3) ∨ op % 8 = 5 ∨ op % 8 = 6 ∨ op % 8 = 7 ∨
    ((op / 64 = 2 ∨ (op / 64 = 3 ∧ op / 16 % 2 = 1)) ∧ op % 8 ≠ 2 ∧ op % 8 ≠ 3)

/-- The rules of R63 tell the codes outside the table, checked on each of the 256 codes. -/
theorem not_mem_legalCodes_iff : ∀ n < 256, n ∉ legalCodes ↔ IllegalFields n := by
  decide +kernel

theorem legalCodes_nodup : legalCodes.Nodup := by
  decide

theorem lt_of_mem_legalCodes : ∀ c ∈ legalCodes, c < 256 := by
  decide

/-- Of the 256 codes all but the 38 of the table are illegal. -/
theorem length_illegal_codes : ((List.range 256).filter (fun c => !legalCodes.contains c)).length = 218 := by
  have hlegal : ((List.range 256).filter (fun c => legalCodes.contains c)).Perm legalCodes := by
    rw [List.perm_ext_iff_of_nodup (List.nodup_range.filter _) legalCodes_nodup]
    intro c
    simpa using lt_of_mem_legalCodes c
  have hsplit := List.length_eq_length_filter_add (l := List.range 256) (fun c => legalCodes.contains c)
  rw [hlegal.length_eq, List.length_range] at hsplit
  have h38 : legalCodes.length = 38 := rfl
  omega

/-- A request that does not decode is answered `{4, 0, 0, 0}` and no byte changes (R63, R141). -/
theorem runRequest_of_error_answered {r : Request} {e : DecodeError} (h : decode r = .error e) (s : State) :
    ∃ t, runRequest r s = .next t ∧ Answered s t ⟨4, false, 0, 0⟩ ∧ SameBuffer s t :=
  ⟨_, runRequest_of_error h s, answered_raise s .illegalOp, sameBuffer_raise s .illegalOp⟩

/-- Settles O2: the codes that do not decode are those outside the table, and the fields of R63 tell which these are. -/
theorem illegalCodesAreThoseOfTheFields : Obligations.IllegalCodesAreThoseOfTheFields := by
  unfold Obligations.IllegalCodesAreThoseOfTheFields
  exact ⟨fun r => (exists_decode_error_iff r).trans (not_mem_legalCodes_iff _ r.op.isLt), length_illegal_codes,
    fun _ _ s h => runRequest_of_error_answered h s⟩

end Sys2Proof.Machine
end

section
/-! The wire format (30_encoding.md Part A): the table of canonical lengths (R57), the number an encoding carries and how large it can be for
its length (R53, R58), and the longest encoding of each width (R60). -/

namespace Sys2Proof.Machine

open Sys2Proof.Safety

/-! ## The canonical length, row by row (R57) -/

theorem encLen_eq_one {v : Nat} (h : v < 2 ^ 7) : encLen v = 1 := by
  unfold encLen; rw [if_pos h]

theorem encLen_eq_two {v : Nat} (hlo : 2 ^ 7 ≤ v) (hhi : v < 2 ^ 14) : encLen v = 2 := by
  unfold encLen; rw [if_neg (by omega), if_pos hhi]

theorem encLen_eq_three {v : Nat} (hlo : 2 ^ 14 ≤ v) (hhi : v < 2 ^ 21) : encLen v = 3 := by
  unfold encLen; rw [if_neg (by omega), if_neg (by omega), if_pos hhi]

theorem encLen_eq_four {v : Nat} (hlo : 2 ^ 21 ≤ v) (hhi : v < 2 ^ 28) : encLen v = 4 := by
  unfold encLen; rw [if_neg (by omega), if_neg (by omega), if_neg (by omega), if_pos hhi]

theorem encLen_eq_of_bitlen {v : Nat} (h : 2 ^ 28 ≤ v) : encLen v = 1 + (bitlen v + 7) / 8 := by
  unfold encLen; rw [if_neg (by omega), if_neg (by omega), if_neg (by omega), if_neg (by omega)]

/-- A number of `n` bytes in the large form's range takes one byte more: `N` of R56 is `n`. -/
theorem encLen_eq_of_byte_range {n v : Nat} (h1 : 1 ≤ n) (h16 : n ≤ 16) (h28 : 2 ^ 28 ≤ v) (hlo : 2 ^ (8 * (n - 1)) ≤ v)
    (hhi : v < 2 ^ (8 * n)) : encLen v = n + 1 := by
  have h128 : v < 2 ^ 128 := hhi.trans_le (Nat.pow_le_pow_right (by decide) (by omega))
  have hcount : n = wireLen v - 1 := (largeCount_eq v n h1 h16 hlo hhi).symm.trans (largeCount_eq_wireLen v h28 h128)
  have hpos := wireLen_pos v
  rw [encLen_eq_wireLen v h128]
  omega

theorem canonicalBytes_length_eq_encLen {v : Nat} (h : v < 2 ^ 128) : (canonicalBytes v).length = encLen v :=
  (canonicalBytes_length v h).trans (encLen_eq_wireLen v h).symm

theorem encLen_mono {u v : Nat} (huv : u ≤ v) (hv : v < 2 ^ 128) : encLen u ≤ encLen v := by
  rw [encLen_eq_wireLen u (huv.trans_lt hv), encLen_eq_wireLen v hv]
  exact wireLen_mono u v huv

/-- Settles O9: each row of R57 is a branch of `encLen`, and `encLen` is the length of the canonical bytes. -/
theorem canonicalLengthIsTheTable : Obligations.CanonicalLengthIsTheTable := by
  unfold Obligations.CanonicalLengthIsTheTable
  exact ⟨fun _ => canonicalBytes_length_eq_encLen, fun _ => encLen_eq_one, fun _ => encLen_eq_two, fun _ => encLen_eq_three,
    fun _ => encLen_eq_four, fun _ _ h4 h16 => encLen_eq_of_byte_range (by omega) h16, fun _ h _ => encLen_eq_of_bitlen h,
    fun _ _ => encLen_mono⟩

/-! ## The longest encoding of each width (R60) -/

/-- The little-endian bytes of the largest number of `n` bytes are all ones. -/
theorem leBytes_two_pow_sub_one (n : Nat) : leBytes n (2 ^ (8 * n) - 1) = List.replicate n 0xFF := by
  induction n with
  | zero => rfl
  | succ n ih =>
    have hpos : 0 < 2 ^ (8 * n) := Nat.two_pow_pos _
    have hsplit : 2 ^ (8 * (n + 1)) = 2 ^ (8 * n) * 256 := by rw [Nat.mul_succ, Nat.pow_add]
    have hhead : BitVec.ofNat 8 ((2 ^ (8 * (n + 1)) - 1) &&& 0xFF) = 0xFF := by
      apply BitVec.eq_of_toNat_eq
      rw [ofNat_and_255_toNat, hsplit]
      show _ = 255
      omega
    have htail : (2 ^ (8 * (n + 1)) - 1) >>> 8 = 2 ^ (8 * n) - 1 := by
      rw [Nat.shiftRight_eq_div_pow, hsplit]; omega
    rw [leBytes, hhead, htail, ih, List.replicate_succ]

/-- The largest number of `n` bytes lies in the row of `n` payload bytes (R57). -/
theorem two_pow_sub_one_in_byte_range {n : Nat} (h4 : 4 ≤ n) :
    2 ^ 28 ≤ 2 ^ (8 * n) - 1 ∧ 2 ^ (8 * (n - 1)) ≤ 2 ^ (8 * n) - 1 ∧ 2 ^ (8 * n) - 1 < 2 ^ (8 * n) := by
  have h32 : 2 ^ 32 ≤ 2 ^ (8 * n) := Nat.pow_le_pow_right (by decide) (by omega)
  have hlt : 2 ^ (8 * (n - 1)) < 2 ^ (8 * n) := Nat.pow_lt_pow_right (by decide) (by omega)
  omega

theorem encLen_two_pow_sub_one {n : Nat} (h4 : 4 ≤ n) (h16 : n ≤ 16) : encLen (2 ^ (8 * n) - 1) = n + 1 := by
  obtain ⟨h28, hlo, hhi⟩ := two_pow_sub_one_in_byte_range h4
  exact encLen_eq_of_byte_range (by omega) h16 h28 hlo hhi

theorem canonicalBytes_two_pow_sub_one {n : Nat} (h4 : 4 ≤ n) (h16 : n ≤ 16) :
    canonicalBytes (2 ^ (8 * n) - 1) = BitVec.ofNat 8 (0xF0 ||| (n - 1)) :: List.replicate n 0xFF := by
  obtain ⟨h28, hlo, hhi⟩ := two_pow_sub_one_in_byte_range h4
  unfold canonicalBytes
  rw [if_neg (by omega), if_neg (by omega), largeCount_eq _ n (by omega) h16 hlo hhi, largeBytes, leBytes_two_pow_sub_one]

/-- No value of at most 128 bits is longer than the largest value of its width. -/
theorem canonicalBytes_length_le_maxEncLen {w v : Nat} (hw : w ≤ 128) (hv : v < 2 ^ w) : (canonicalBytes v).length ≤ maxEncLen w := by
  have hpow : 2 ^ w ≤ 2 ^ 128 := Nat.pow_le_pow_right (by decide) hw
  rw [canonicalBytes_length_eq_encLen (hv.trans_le hpow)]
  exact encLen_mono (by omega) (by omega)

/-- Settles O11: 8 and 16 bits end in the medium form, 32, 64 and 128 bits in the large form with all payload bits set. -/
theorem longestEncodingPerWidth : Obligations.LongestEncodingPerWidth := by
  unfold Obligations.LongestEncodingPerWidth
  refine ⟨⟨encLen_eq_two (by decide) (by decide), by decide⟩, ⟨encLen_eq_three (by decide) (by decide), by decide⟩,
    ⟨encLen_two_pow_sub_one (n := 4) (by decide) (by decide), canonicalBytes_two_pow_sub_one (n := 4) (by decide) (by decide)⟩,
    ⟨encLen_two_pow_sub_one (n := 8) (by decide) (by decide), canonicalBytes_two_pow_sub_one (n := 8) (by decide) (by decide)⟩,
    ⟨encLen_two_pow_sub_one (n := 16) (by decide) (by decide), canonicalBytes_two_pow_sub_one (n := 16) (by decide) (by decide)⟩,
    fun w hw v hv => canonicalBytes_length_le_maxEncLen ?_ hv⟩
  simp only [List.mem_cons, List.not_mem_nil, or_false] at hw
  omega

/-! ## The number an encoding carries (R53) -/

/-- Byte 0 as a number in each of the three shapes (R52). -/
theorem classify_cases (b : Byte) :
    (classify b = .small ∧ b.toNat < 0x80) ∨
    (∃ l, classify b = .medium l ∧ 2 ≤ l ∧ l ≤ 4 ∧ 0x80 ≤ b.toNat ∧ b.toNat < 0xF0) ∨
    (∃ n, classify b = .large n ∧ 1 ≤ n ∧ n ≤ 16 ∧ 0xF0 ≤ b.toNat) := by
  have hb : b.toNat < 256 := b.isLt
  rw [classify_eq]
  split_ifs with h80 hC0 hE0 hF0
  · exact .inl ⟨rfl, h80⟩
  · exact .inr (.inl ⟨2, rfl, by omega⟩)
  · exact .inr (.inl ⟨3, rfl, by omega⟩)
  · exact .inr (.inl ⟨4, rfl, by omega⟩)
  · exact .inr (.inr ⟨_, rfl, by omega⟩)

/-- The medium form's number: the payload bits of byte 0, and the bytes after it above them. -/
theorem carried_medium (l : Nat) (b0 : Byte) (rest : List Byte) :
    carried (.medium l) b0 rest = b0.toNat % 2 ^ (8 - l) + leValue rest * 2 ^ (8 - l) := by
  have hlt : b0.toNat % 2 ^ (8 - l) < 2 ^ (8 - l) := Nat.mod_lt _ (Nat.two_pow_pos _)
  simp only [carried, low]
  rw [Nat.or_comm, Nat.shiftLeft_eq, Nat.mul_comm, ← Nat.two_pow_add_eq_or_of_lt hlt, Nat.add_comm]

/-- Settles O13: shape by shape, the model's shifts and ors are the sums and products of R53. -/
theorem payloadIsAssembledLittleEndian : Obligations.PayloadIsAssembledLittleEndian := by
  unfold Obligations.PayloadIsAssembledLittleEndian
  intro b0 rest hlen
  have hrest : rest.length = prefixLen b0.toNat - 1 := by rw [← encTotalLen_eq]; omega
  have hsum : leValue rest = payloadSum (fun i => ((b0 :: rest)[i]?.getD 0).toNat) (prefixLen b0.toNat - 1) := by
    rw [← hrest]
    exact leValue_eq_payloadSum rest _ fun i hi => by simp [hi]
  unfold wireValue
  simp only [List.getElem?_cons_zero, Option.getD_some, ← hsum]
  rcases classify_cases b0 with ⟨hsh, hb⟩ | ⟨l, hsh, -, -, hlo, hhi⟩ | ⟨n, hsh, -, -, hlo⟩
  · rw [hsh, if_pos hb, carried]
  · have hl : prefixLen b0.toNat = l := by rw [← shape_totalLen_eq, hsh, Shape.totalLen]
    rw [hsh, carried_medium, if_neg (by omega), if_pos hhi, hl]
  · rw [hsh, if_neg (by omega), if_neg (by omega), carried]

/-! ## No encoding is shorter than the canonical one (R58) -/

/-- The payload bits of a shape: 7 a byte in the small and medium forms (R49, R50), 8 a payload byte in the large form (R51). -/
def Shape.payloadBits : Shape → Nat
  | .small => 7
  | .medium len => 7 * len
  | .large count => 8 * count

/-- An encoding carries a number of at most its payload bits. -/
theorem carried_lt_two_pow_payloadBits {b0 : Byte} {rest : List Byte} (hlen : rest.length + 1 = encTotalLen b0) :
    carried (classify b0) b0 rest < 2 ^ (classify b0).payloadBits := by
  have hval := leValue_lt rest
  rw [encTotalLen] at hlen
  rcases classify_cases b0 with ⟨hsh, hb⟩ | ⟨l, hsh, h2, h4, -, -⟩ | ⟨n, hsh, -, -, -⟩ <;>
    rw [hsh, Shape.totalLen] at hlen <;> rw [hsh, Shape.payloadBits]
  · exact hb
  · have hlt : b0.toNat % 2 ^ (8 - l) < 2 ^ (8 - l) := Nat.mod_lt _ (Nat.two_pow_pos _)
    have hbits : 256 ^ rest.length * 2 ^ (8 - l) = 2 ^ (7 * l) := by
      rw [← two_pow_eight_mul, ← Nat.pow_add]; congr 1; omega
    rw [carried_medium, ← hbits]
    calc b0.toNat % 2 ^ (8 - l) + leValue rest * 2 ^ (8 - l)
        < 2 ^ (8 - l) + leValue rest * 2 ^ (8 - l) := Nat.add_lt_add_right hlt _
      _ = (leValue rest + 1) * 2 ^ (8 - l) := by ring
      _ ≤ 256 ^ rest.length * 2 ^ (8 - l) := Nat.mul_le_mul_right _ hval
  · obtain rfl : rest.length = n := by omega
    rw [carried, two_pow_eight_mul]
    exact hval

/-- A number of at most `8·n` bits is at most `n + 1` bytes long. -/
theorem wireLen_le_of_lt_two_pow {n v : Nat} (h1 : 1 ≤ n) (h16 : n ≤ 16) (hv : v < 2 ^ (8 * n)) : wireLen v ≤ n + 1 := by
  by_cases h28 : v < 2 ^ 28
  · unfold wireLen; interval_cases n <;> split_ifs <;> omega
  · have h128 : v < 2 ^ 128 := hv.trans_le (Nat.pow_le_pow_right (by decide) (by omega))
    obtain ⟨-, -, hlo, -⟩ := wireLen_large_bounds v (by omega) h128
    have hexp : 8 * (wireLen v - 1 - 1) < 8 * n := (Nat.pow_lt_pow_iff_right (a := 2) (by decide)).1 (hlo.trans_lt hv)
    omega

/-- The canonical encoding of a number that a shape has the payload bits for is no longer than that shape. -/
theorem wireLen_le_encTotalLen {b0 : Byte} {v : Nat} (hv : v < 2 ^ (classify b0).payloadBits) : wireLen v ≤ encTotalLen b0 := by
  rw [encTotalLen]
  rcases classify_cases b0 with ⟨hsh, -⟩ | ⟨l, hsh, h2, h4, -, -⟩ | ⟨n, hsh, h1, h16, -⟩ <;>
    rw [hsh, Shape.payloadBits] at hv <;> rw [hsh, Shape.totalLen]
  · exact (wireLen_small v hv).le
  · unfold wireLen; interval_cases l <;> split_ifs <;> omega
  · exact wireLen_le_of_lt_two_pow h1 h16 hv

theorem payloadBits_classify_le (b0 : Byte) : (classify b0).payloadBits ≤ 128 := by
  rcases classify_cases b0 with ⟨hsh, -⟩ | ⟨l, hsh, -, h4, -, -⟩ | ⟨n, hsh, -, h16, -⟩ <;> rw [hsh, Shape.payloadBits] <;> omega

theorem canonicalBytes_carried_length_le {b0 : Byte} {rest : List Byte} (hlen : rest.length + 1 = encTotalLen b0) :
    (canonicalBytes (carried (classify b0) b0 rest)).length ≤ rest.length + 1 := by
  have hlt := carried_lt_two_pow_payloadBits hlen
  have h128 := hlt.trans_le (Nat.pow_le_pow_right (by decide) (payloadBits_classify_le b0))
  rw [canonicalBytes_length _ h128, hlen]
  exact wireLen_le_encTotalLen hlt

/-! ## The three ranges where a large form is as short as the canonical one (R58) -/

/-- The large form in `n` payload bytes of any number that fits them, canonical or not (R51). -/
theorem exists_large_encoding {n v : Nat} (h1 : 1 ≤ n) (h16 : n ≤ 16) (hv : v < 2 ^ (8 * n)) :
    ∃ (b0 : Byte) (rest : List Byte), classify b0 = .large n ∧ rest.length = n ∧ carried (classify b0) b0 rest = v := by
  have hsh : classify (BitVec.ofNat 8 (0xF0 ||| (n - 1))) = .large n := by
    rw [classify_eq, largeHead_toNat n h1 h16, if_neg (by omega), if_neg (by omega), if_neg (by omega), if_neg (by omega)]
    congr 1; omega
  refine ⟨_, leBytes n v, hsh, leBytes_length n v, ?_⟩
  rw [hsh, carried, leValue_leBytes, ← two_pow_eight_mul, Nat.mod_eq_of_lt hv]

/-- Byte 0 of the canonical encoding of a value of the medium range says the medium form of the value's length (R50, R56). -/
theorem classify_headD_canonicalBytes {v : Nat} (h7 : 2 ^ 7 ≤ v) (h28 : v < 2 ^ 28) :
    classify ((canonicalBytes v).headD 0) = .medium (wireLen v) := by
  obtain ⟨h2, h4, -⟩ := wireLen_medium_bounds v h7 h28
  have hlt : v % 2 ^ (8 - wireLen v) < 2 ^ (8 - wireLen v) := Nat.mod_lt _ (Nat.two_pow_pos _)
  rw [canonicalBytes, if_neg (by omega), if_pos h28, mediumLen_eq_wireLen v h7 h28, mediumBytes, List.headD_cons, classify_eq,
    mediumHead_toNat _ v h2 h4]
  generalize wireLen v = l at *
  interval_cases l <;> simp only [Nat.reduceSub, Nat.reducePow] at *
  · rw [if_neg (by omega), if_pos (by omega)]
  · rw [if_neg (by omega), if_neg (by omega), if_pos (by omega)]
  · rw [if_neg (by omega), if_neg (by omega), if_neg (by omega), if_pos (by omega)]

/-- The medium form of `n + 1` bytes and the large form of `n` payload bytes share the values that need all `n + 1` bytes but fit `8·n` bits. -/
theorem exists_large_encoding_of_medium_length {n v : Nat} (h1 : 1 ≤ n) (h16 : n ≤ 16) (hv : v < 2 ^ (8 * n)) (h7 : 2 ^ 7 ≤ v)
    (h28 : v < 2 ^ 28) (hw : wireLen v = n + 1) :
    ∃ (b0 : Byte) (rest : List Byte), classify b0 = .large n ∧ rest.length + 1 = encTotalLen b0 ∧ carried (classify b0) b0 rest = v ∧
      rest.length + 1 = (canonicalBytes v).length ∧ classify ((canonicalBytes v).headD 0) = .medium (n + 1) := by
  obtain ⟨b0, rest, hsh, hrest, hcar⟩ := exists_large_encoding h1 h16 hv
  refine ⟨b0, rest, hsh, ?_, hcar, ?_, ?_⟩
  · rw [encTotalLen, hsh, Shape.totalLen, hrest]
  · rw [canonicalBytes_length v (by omega), hw, hrest]
  · rw [classify_headD_canonicalBytes h7 h28, hw]

/-- Settles O12: an encoding carries at most its payload bits, and the canonical encoding of so many bits is no longer; in the three ranges
`wireLen` gives the medium form of `n + 1` bytes. -/
theorem canonicalIsShortest : Obligations.CanonicalIsShortest := by
  unfold Obligations.CanonicalIsShortest
  refine ⟨fun _ _ => canonicalBytes_carried_length_le, ?_⟩
  rintro n v (⟨rfl, hlo, hhi⟩ | ⟨rfl, hlo, hhi⟩ | ⟨rfl, hlo, hhi⟩) <;>
    refine exists_large_encoding_of_medium_length (by decide) (by decide) hhi (by omega) (by omega) ?_ <;>
    rw [wireLen_medium v (by omega) (by omega)] <;> split_ifs <;> omega

end Sys2Proof.Machine
end

section
/-! The encodes (40_unsigned_encode.md, 44_composite.md): the job of each family and the number it encodes, the capacity check (R69), what
an encode answers with and without room (R70, R71, R137), and how long a reported encoding can be (R73). -/

namespace Sys2Proof.Machine

open Sys2Proof.Safety

/-! ## The job of each encode (R68, R116, R118) -/

theorem encodeJob_of_mem_unsignedEncodes {w : Nat} {mk : Word → Nat → Nat → Instr} (h : (w, mk) ∈ unsignedEncodes) (a : Word)
    (off len : Nat) : encodeJob (mk a off len) = some (unsignedJob w a off len) := by
  simp only [unsignedEncodes, List.mem_cons, Prod.mk.injEq, List.not_mem_nil, or_false] at h
  obtain ⟨rfl, rfl⟩ | ⟨rfl, rfl⟩ | ⟨rfl, rfl⟩ | ⟨rfl, rfl⟩ | ⟨rfl, rfl⟩ := h <;> rfl

theorem encodeJob_of_mem_signedEncodes {w : Nat} {mk : Word → Nat → Nat → Instr} (h : (w, mk) ∈ signedEncodes) (a : Word)
    (off len : Nat) : encodeJob (mk a off len) = some (signedJob w a off len) := by
  simp only [signedEncodes, List.mem_cons, Prod.mk.injEq, List.not_mem_nil, or_false] at h
  obtain ⟨rfl, rfl⟩ | ⟨rfl, rfl⟩ | ⟨rfl, rfl⟩ | ⟨rfl, rfl⟩ | ⟨rfl, rfl⟩ := h <;> rfl

theorem encodeJob_of_mem_floatEncodes {w : Nat} {mk : Word → Nat → Nat → Instr} (h : (w, mk) ∈ floatEncodes) (a : Word)
    (off len : Nat) : encodeJob (mk a off len) = some (floatJob w a off len) := by
  simp only [floatEncodes, List.mem_cons, Prod.mk.injEq, List.not_mem_nil, or_false] at h
  obtain ⟨rfl, rfl⟩ | ⟨rfl, rfl⟩ := h <;> rfl

/-- Each of the twelve encodes has a job of its width at the request's `off` and `len`. -/
theorem exists_encodeJob_of_mem_encodes {w : Nat} {mk : Word → Nat → Nat → Instr} (h : (w, mk) ∈ encodes) (a : Word) (off len : Nat) :
    ∃ v, encodeJob (mk a off len) = some ⟨w, v, off, len⟩ := by
  simp only [encodes, List.mem_append, or_assoc] at h
  obtain hu | hs | hf := h
  · exact ⟨_, encodeJob_of_mem_unsignedEncodes hu a off len⟩
  · exact ⟨_, encodeJob_of_mem_signedEncodes hs a off len⟩
  · exact ⟨_, encodeJob_of_mem_floatEncodes hf a off len⟩

theorem encodeJob_width {i : Instr} {j : EncodeJob} (h : encodeJob i = some j) : j.w = i.width := by
  cases i <;> simp only [encodeJob, Option.some.injEq, reduceCtorEq] at h <;> subst h <;> rfl

theorem encodeJob_value_lt_two_pow_128 {i : Instr} {j : EncodeJob} (h : encodeJob i = some j) : j.v < 2 ^ 128 := by
  obtain ⟨hv, hw⟩ := encodeJob_value_lt i j h
  exact hv.trans_le (Nat.pow_le_pow_right (by decide) hw)

/-! ## The number each encode writes (R92, R107) -/

theorem unsignedJob_v (w : Nat) (a : Word) (off len : Nat) : (unsignedJob w a off len).v = a.toNat % 2 ^ w := operand_toNat w a

/-- ZZ_ENC maps the signed value as R92 says. -/
theorem zzEnc_toNat_eq_zigzagNumber {w : Nat} (hw : 0 < w) (x : BitVec w) : ((zzEnc x).toNat : Int) = zigzagNumber x.toInt := by
  have hpow : 2 ^ w = 2 * 2 ^ (w - 1) := by rw [← Nat.pow_succ']; congr 1; omega
  have hlt := x.isLt
  rw [zzEnc_toNat x hw, BitVec.toInt_eq_toNat_cond, zigzagNumber]
  split_ifs <;> omega

/-- The reversal of R107 is one pattern, the one REV gives. -/
theorem eq_bitRev_of_reversed {w : Nat} {x u : BitVec w} (h : Reversed x u) : u = bitRev x := by
  apply BitVec.eq_of_getLsbD_eq
  intro k hk
  have hmirror := h (w - 1 - k) (by omega)
  rw [show w - 1 - (w - 1 - k) = k by omega] at hmirror
  rw [hmirror, getLsbD_bitRev, decide_eq_true hk, Bool.true_and]

theorem signedJob_v {w : Nat} (hw : 0 < w) {a : Word} {v : Nat} (off len : Nat) (h : (v : Int) = zigzagNumber (a.setWidth w).toInt) :
    (signedJob w a off len).v = v := by
  rw [← zzEnc_toNat_eq_zigzagNumber hw, ← operand_eq_setWidth] at h
  exact (Int.ofNat_inj.1 h).symm

theorem floatJob_v {w : Nat} {a : Word} {u : BitVec w} (off len : Nat) (h : Reversed (a.setWidth w) u) :
    (floatJob w a off len).v = u.toNat := by
  rw [eq_bitRev_of_reversed h, floatJob, operand_eq_setWidth]

theorem pos_of_mem_signedEncodes {w : Nat} {mk : Word → Nat → Nat → Instr} (h : (w, mk) ∈ signedEncodes) : 0 < w := by
  simp only [signedEncodes, List.mem_cons, Prod.mk.injEq, List.not_mem_nil, or_false] at h
  omega

/-! ## The capacity check (R69) -/

/-- The table of R60 is `MAX_ENC_LEN`. -/
theorem maxEncLen_eq_maxLenOf {w : Nat} (h : w ∈ [8, 16, 32, 64, 128]) : maxEncLen w = maxLenOf w := by
  obtain ⟨⟨h8, -⟩, ⟨h16, -⟩, ⟨h32, -⟩, ⟨h64, -⟩, ⟨h128, -⟩, -⟩ := longestEncodingPerWidth
  simp only [List.mem_cons, List.not_mem_nil, or_false] at h
  obtain rfl | rfl | rfl | rfl | rfl := h <;> assumption

theorem encodeJob_maxEncLen {i : Instr} {j : EncodeJob} (h : encodeJob i = some j) : maxEncLen j.w = maxLenOf j.w :=
  maxEncLen_eq_maxLenOf (encodeJob_width h ▸ instr_width_mem i)

theorem room_iff_of_maxLen {b : Build} (h : b.capacityRule = .maxLen) (m off len v : Nat) :
    Room b m off len v ↔ off ≤ len ∧ m ≤ len - off := by
  simp [Room, h]

theorem room_iff_of_exact {b : Build} (h : b.capacityRule = .exact) (m off len v : Nat) :
    Room b m off len v ↔ off ≤ len ∧ wireLen v ≤ len - off := by
  simp [Room, h]

/-! ## What an encode answers (R70, R71, R137) -/

/-- With room, an encode writes the canonical encoding of its job's number and nothing else, and reports its length (R71). -/
theorem exec_encode_of_room {i : Instr} {j : EncodeJob} (hj : encodeJob i = some j) {s : State}
    (h : Room s.build (maxLenOf j.w) j.off j.len j.v) :
    ∃ t, exec i s = .next t ∧ Answered s t ⟨0, false, 0, BitVec.ofNat 5 (wireLen j.v)⟩ ∧ HoldsEncoding s t j.off j.v := by
  have hv := encodeJob_value_lt_two_pow_128 hj
  rw [← encodeJob_maxEncLen hj] at h
  rw [exec_of_encodeJob i j s hj]
  exact ⟨_, runEncode_of_room j s hv h, answered_respond s _ _, holdsEncoding_writeBytes s _ j.off j.v hv⟩

/-- Without room, an encode is answered ERR_CAPACITY and writes nothing (R70, R137). -/
theorem exec_encode_of_not_room {i : Instr} {j : EncodeJob} (hj : encodeJob i = some j) {s : State}
    (h : ¬ Room s.build (maxLenOf j.w) j.off j.len j.v) :
    ∃ t, exec i s = .next t ∧ Answered s t ⟨1, false, 0, 0⟩ ∧ SameBuffer s t := by
  rw [← encodeJob_maxEncLen hj] at h
  rw [exec_of_encodeJob i j s hj]
  exact ⟨_, runEncode_of_not_room j s (encodeJob_value_lt_two_pow_128 hj) h, answered_raise s .capacity, sameBuffer_raise s .capacity⟩

/-- An encode gives one of two responses, by the capacity check. -/
theorem exec_encode_response {i : Instr} {j : EncodeJob} (hj : encodeJob i = some j) (s : State) :
    ∃ t p, exec i s = .next t ∧ t.rsp = some p ∧
      ((Room s.build (maxLenOf j.w) j.off j.len j.v ∧ p = ⟨0, false, 0, BitVec.ofNat 5 (wireLen j.v)⟩) ∨
        (¬ Room s.build (maxLenOf j.w) j.off j.len j.v ∧ p = ⟨1, false, 0, 0⟩)) := by
  by_cases h : Room s.build (maxLenOf j.w) j.off j.len j.v
  · obtain ⟨t, hexec, ⟨-, hrsp, -⟩, -⟩ := exec_encode_of_room hj h
    exact ⟨t, _, hexec, hrsp, .inl ⟨h, rfl⟩⟩
  · obtain ⟨t, hexec, ⟨-, hrsp, -⟩, -⟩ := exec_encode_of_not_room hj h
    exact ⟨t, _, hexec, hrsp, .inr ⟨h, rfl⟩⟩

/-- The status says whether the capacity check passed, in whatever decidable form `P` the check is given. -/
theorem exec_encode_status {i : Instr} {j : EncodeJob} (hj : encodeJob i = some j) (s : State) {P : Prop} [Decidable P]
    (hP : Room s.build (maxLenOf j.w) j.off j.len j.v ↔ P) :
    ∃ t p, exec i s = .next t ∧ t.rsp = some p ∧ p.status = if P then 0 else 1 := by
  obtain ⟨t, p, hexec, hrsp, ⟨hroom, rfl⟩ | ⟨hroom, rfl⟩⟩ := exec_encode_response hj s
  · exact ⟨t, _, hexec, hrsp, (if_pos (hP.1 hroom)).symm⟩
  · exact ⟨t, _, hexec, hrsp, (if_neg (mt hP.2 hroom)).symm⟩

/-- The canonical encoding of an encode's number is no longer than its width's longest (R60). -/
theorem encodeJob_wireLen_le {i : Instr} {j : EncodeJob} (hj : encodeJob i = some j) : wireLen j.v ≤ maxLenOf j.w := by
  obtain ⟨hv, hw⟩ := encodeJob_value_lt i j hj
  rw [← encodeJob_maxEncLen hj, ← canonicalBytes_length j.v (encodeJob_value_lt_two_pow_128 hj)]
  exact canonicalBytes_length_le_maxEncLen hw hv

/-! ## The obligations -/

/-- Settles O10: the length is monotonic in the value, and a successful encode reports the length of a value of its width. -/
theorem compactnessIsMonotonic : Obligations.CompactnessIsMonotonic := by
  unfold Obligations.CompactnessIsMonotonic
  refine ⟨fun u v huv hv => ?_, fun w mk hmem a off len s => ?_⟩
  · rw [canonicalBytes_length u (huv.trans hv), canonicalBytes_length v hv]
    exact wireLen_mono u v huv.le
  · obtain ⟨v, hj⟩ := exists_encodeJob_of_mem_encodes hmem a off len
    obtain ⟨t, p, hexec, hrsp, ⟨-, rfl⟩ | ⟨-, rfl⟩⟩ := exec_encode_response hj s
    · exact ⟨t, _, hexec, hrsp, fun _ => (Nat.mod_le _ _).trans (encodeJob_wireLen_le hj)⟩
    · exact ⟨t, _, hexec, hrsp, fun hstatus => absurd hstatus (by decide)⟩

/-- Settles O16: the job of an unsigned encode is the operand's number at the request's region. -/
theorem unsignedEncodeWritesCanonical : Obligations.UnsignedEncodeWritesCanonical := by
  unfold Obligations.UnsignedEncodeWritesCanonical
  intro w mk hmem a off len s hroom
  rw [← unsignedJob_v w a off len] at hroom ⊢
  exact exec_encode_of_room (encodeJob_of_mem_unsignedEncodes hmem a off len) hroom

/-- Settles O19: for each family, the number whose room is asked for is the number of the job. -/
theorem encodeWithoutRoomWritesNothing : Obligations.EncodeWithoutRoomWritesNothing := by
  unfold Obligations.EncodeWithoutRoomWritesNothing
  refine ⟨fun w mk hmem a off len s hroom => ?_, fun w mk hmem a off len s v hv hroom => ?_,
    fun w mk hmem a off len s u hu hroom => ?_⟩
  · rw [← unsignedJob_v w a off len] at hroom
    exact exec_encode_of_not_room (encodeJob_of_mem_unsignedEncodes hmem a off len) hroom
  · rw [← signedJob_v (pos_of_mem_signedEncodes hmem) off len hv] at hroom
    exact exec_encode_of_not_room (encodeJob_of_mem_signedEncodes hmem a off len) hroom
  · rw [← floatJob_v off len hu] at hroom
    exact exec_encode_of_not_room (encodeJob_of_mem_floatEncodes hmem a off len) hroom

/-- Settles O20: under each capacity rule, the room an encode needs is the bound the statement names. -/
theorem capacityCheckDecidesSuccess : Obligations.CapacityCheckDecidesSuccess := by
  unfold Obligations.CapacityCheckDecidesSuccess
  refine ⟨fun w mk hmem a off len s hrule => ?_, fun w mk hmem a off len s hrule => ?_⟩
  · obtain ⟨v, hj⟩ := exists_encodeJob_of_mem_encodes hmem a off len
    exact exec_encode_status hj s (room_iff_of_maxLen hrule _ _ _ _)
  · rw [← unsignedJob_v w a off len]
    exact exec_encode_status (encodeJob_of_mem_unsignedEncodes hmem a off len) s (room_iff_of_exact hrule _ _ _ _)

end Sys2Proof.Machine
end

section
/-! The decodes (41_unsigned_decode.md, 44_composite.md): the shared decode each one runs, the number it reads from the buffer (R53, R79), that
it writes nothing (R81), what it answers when the number fits (R82), the numbers an encoding can carry (R84, R86), and that a decode gives
back what an encode wrote (R85). -/

namespace Sys2Proof.Machine

open Sys2Proof.Safety

/-! ## The shared decode of each operation (R79, R117, R119) -/

theorem exec_of_mem_unsignedDecodes {w : Nat} {mk : Nat → Nat → Instr} (h : (w, mk) ∈ unsignedDecodes) (off len : Nat) (s : State) :
    exec (mk off len) s = runDecode w id off len s := by
  simp only [unsignedDecodes, List.mem_cons, Prod.mk.injEq, List.not_mem_nil, or_false] at h
  obtain ⟨rfl, rfl⟩ | ⟨rfl, rfl⟩ | ⟨rfl, rfl⟩ | ⟨rfl, rfl⟩ | ⟨rfl, rfl⟩ := h <;> rfl

theorem exec_of_mem_signedDecodes {w : Nat} {mk : Nat → Nat → Instr} (h : (w, mk) ∈ signedDecodes) (off len : Nat) (s : State) :
    exec (mk off len) s = runDecode w zzDec off len s := by
  simp only [signedDecodes, List.mem_cons, Prod.mk.injEq, List.not_mem_nil, or_false] at h
  obtain ⟨rfl, rfl⟩ | ⟨rfl, rfl⟩ | ⟨rfl, rfl⟩ | ⟨rfl, rfl⟩ | ⟨rfl, rfl⟩ := h <;> rfl

theorem exec_of_mem_floatDecodes {w : Nat} {mk : Nat → Nat → Instr} (h : (w, mk) ∈ floatDecodes) (off len : Nat) (s : State) :
    exec (mk off len) s = runDecode w bitRev off len s := by
  simp only [floatDecodes, List.mem_cons, Prod.mk.injEq, List.not_mem_nil, or_false] at h
  obtain ⟨rfl, rfl⟩ | ⟨rfl, rfl⟩ := h <;> rfl

/-- Each of the twelve decodes is the shared one with an inverse mapping of its own. -/
theorem exists_runDecode_of_mem_decodes {w : Nat} {mk : Nat → Nat → Instr} (h : (w, mk) ∈ decodes) :
    ∃ back : BitVec w → BitVec w, ∀ off len s, exec (mk off len) s = runDecode w back off len s := by
  simp only [decodes, List.mem_append, or_assoc] at h
  obtain hu | hs | hf := h
  · exact ⟨id, exec_of_mem_unsignedDecodes hu⟩
  · exact ⟨zzDec, exec_of_mem_signedDecodes hs⟩
  · exact ⟨bitRev, exec_of_mem_floatDecodes hf⟩

theorem width_le_of_mem_unsignedDecodes {w : Nat} {mk : Nat → Nat → Instr} (h : (w, mk) ∈ unsignedDecodes) : w ≤ 128 := by
  simp only [unsignedDecodes, List.mem_cons, Prod.mk.injEq, List.not_mem_nil, or_false] at h
  omega

/-! ## The number in the buffer (R53) -/

/-- The number of an encoding depends on the bytes of the encoding only. -/
theorem wireValue_congr {b b' : Nat → Nat} (h : ∀ i < prefixLen (b 0), b i = b' i) : wireValue b = wireValue b' := by
  have h0 : b 0 = b' 0 := h 0 (prefixLen_pos _)
  have hsum : payloadSum b (prefixLen (b 0) - 1) = payloadSum b' (prefixLen (b 0) - 1) := by
    refine congrArg List.sum (List.map_congr_left fun j hj => ?_)
    rw [h (j + 1) (by have := List.mem_range.1 hj; omega)]
  unfold wireValue
  rw [hsum, h0]

theorem byteAt_zero (s : State) (off : Nat) : byteAt s off 0 = (s.buf.read off).toNat := rfl

/-- The bytes a decode reads after byte 0 are as many as byte 0 implies (R79). -/
theorem readBytes_payload_length (s : State) (off : Nat) :
    (s.buf.readBytes (off + 1) (lengthAt s off - 1)).length + 1 = encTotalLen (s.buf.read off) := by
  have hpos := prefixLen_pos (s.buf.read off).toNat
  rw [Memory.readBytes_length, encTotalLen_eq, lengthAt, byteAt_zero]
  omega

/-- The model's assembly of the buffer's bytes is the number of R53. -/
theorem bufferValue_eq_valueAt (s : State) (off : Nat) : bufferValue s off = valueAt s off := by
  rw [bufferValue, payloadIsAssembledLittleEndian _ _ (readBytes_payload_length s off), valueAt]
  refine wireValue_congr fun i hi => ?_
  cases i with
  | zero => rfl
  | succ j =>
    have hj : j < (s.buf.readBytes (off + 1) (lengthAt s off - 1)).length := by
      rw [Memory.readBytes_length, lengthAt, byteAt_zero]
      simp only [List.getElem?_cons_zero, Option.getD_some] at hi
      omega
    rw [List.getElem?_cons_succ, List.getElem?_eq_getElem hj, Option.getD_some, Memory.readBytes_getElem, byteAt,
      Nat.add_assoc, Nat.add_comm 1]

/-! ## What a decode answers (R81, R82) -/

/-- No decode writes a byte, whichever response it gives (R81). -/
theorem runDecode_sameBuffer (w : Nat) (back : BitVec w → BitVec w) (off len : Nat) (s : State) :
    ∃ t, runDecode w back off len s = .next t ∧ SameBuffer s t := by
  obtain ⟨-, h⟩ | ⟨-, -, h⟩ | ⟨-, -, -, h⟩ | ⟨-, -, -, h⟩ := runDecode_cases w back off len s
  · exact ⟨_, h, sameBuffer_raise s _⟩
  · exact ⟨_, h, sameBuffer_respond s _⟩
  · exact ⟨_, h, sameBuffer_raise s _⟩
  · exact ⟨_, h, sameBuffer_respond s _⟩

/-- A complete encoding whose number fits is answered the mapped number and its length (R82, R117, R119). -/
theorem runDecode_of_fits {w : Nat} (back : BitVec w → BitVec w) {off len : Nat} {s : State} (hc : Complete s off len)
    (hv : valueAt s off < 2 ^ w) :
    ∃ t, runDecode w back off len s = .next t ∧
      Answered s t ⟨0, false, result (back (BitVec.ofNat w (valueAt s off))), BitVec.ofNat 5 (lengthAt s off)⟩ ∧ SameBuffer s t := by
  have hcases := runDecode_cases w back off len s
  rw [bufferValue_eq_valueAt] at hcases
  obtain ⟨hshort, -⟩ | ⟨-, -, h⟩ | ⟨-, hwide, -⟩ | ⟨-, hwide, -⟩ := hcases
  · exact absurd hc hshort
  · exact ⟨_, h, answered_respond_self s _, sameBuffer_respond s _⟩
  · omega
  · omega

theorem result_ofNat {w v : Nat} (hw : w ≤ 128) (hv : v < 2 ^ w) : result (BitVec.ofNat w v) = BitVec.ofNat 128 v := by
  have h128 : v < 2 ^ 128 := hv.trans_le (Nat.pow_le_pow_right (by decide) hw)
  apply BitVec.eq_of_toNat_eq
  rw [result_toNat _ hw, BitVec.toNat_ofNat, BitVec.toNat_ofNat, Nat.mod_eq_of_lt hv, Nat.mod_eq_of_lt h128]

/-- Settles O28: each decode is the shared one, which writes nothing. -/
theorem decodeWritesNothing : Obligations.DecodeWritesNothing := by
  unfold Obligations.DecodeWritesNothing
  intro w mk hmem off len s
  obtain ⟨back, hexec⟩ := exists_runDecode_of_mem_decodes hmem
  rw [hexec]
  exact runDecode_sameBuffer w back off len s

/-- Settles O22: an unsigned decode maps the number by the identity. -/
theorem unsignedDecodeAnswersTheNumber : Obligations.UnsignedDecodeAnswersTheNumber := by
  unfold Obligations.UnsignedDecodeAnswersTheNumber
  intro w mk hmem off len s hc hv
  rw [exec_of_mem_unsignedDecodes hmem, ← result_ofNat (width_le_of_mem_unsignedDecodes hmem) hv]
  exact runDecode_of_fits id hc hv

/-! ## What a decode finds after an encode (R85) -/

/-- An encode answered OK has written the canonical encoding of its number (R71). -/
theorem holdsEncoding_of_exec_encode {i : Instr} {j : EncodeJob} (hj : encodeJob i = some j) {s t : State} {p : Response}
    (hexec : exec i s = .next t) (hrsp : t.rsp = some p) (hok : p.status = 0) : HoldsEncoding s t j.off j.v := by
  by_cases hroom : Room s.build (maxLenOf j.w) j.off j.len j.v
  · obtain ⟨u, hu, -, hholds⟩ := exec_encode_of_room hj hroom
    obtain rfl : u = t := Host.Outcome.next.inj (hu.symm.trans hexec)
    exact hholds
  · obtain ⟨u, hu, ⟨-, hursp, -⟩, -⟩ := exec_encode_of_not_room hj hroom
    obtain rfl : u = t := Host.Outcome.next.inj (hu.symm.trans hexec)
    obtain rfl : _ = p := Option.some.inj (hursp.symm.trans hrsp)
    exact absurd hok (by decide)

/-- The canonical encoding as arithmetic reads back as its number, with its length (R56, R85). -/
theorem wireByte_reads_back {v : Nat} (h : v < 2 ^ 128) : prefixLen (wireByte v 0) = wireLen v ∧ wireValue (wireByte v) = v := by
  obtain ⟨b0, rest, hbytes, hlen, hcar⟩ := canonicalBytes_reads_back v h
  have hbyte : ∀ i (hi : i < (b0 :: rest).length), (b0 :: rest)[i].toNat = wireByte v i := by
    rw [← hbytes]; exact fun i => canonicalBytes_getElem v i h
  have hprefix : prefixLen b0.toNat = (b0 :: rest).length := by rw [← encTotalLen_eq, ← hlen, List.length_cons]
  refine ⟨?_, ?_⟩
  · rw [← hbyte 0 (Nat.succ_pos _), List.getElem_cons_zero, hprefix, ← hbytes, canonicalBytes_length v h]
  · rw [payloadIsAssembledLittleEndian b0 rest hlen] at hcar
    rw [← hcar]
    refine (wireValue_congr fun i hi => ?_).symm
    have hi' : i < (b0 :: rest).length := hprefix ▸ hi
    rw [List.getElem?_eq_getElem hi', Option.getD_some, hbyte, hcar]

/-- Where the bytes from `off` on are the canonical encoding of `v`, a decode finds `v` and its length. -/
theorem lengthAt_valueAt_of_wireBytes {s : State} {off v : Nat} (hv : v < 2 ^ 128) (h : ∀ i < wireLen v, byteAt s off i = wireByte v i) :
    lengthAt s off = wireLen v ∧ valueAt s off = v := by
  obtain ⟨hlen, hval⟩ := wireByte_reads_back hv
  have hlength : lengthAt s off = wireLen v := by rw [lengthAt, h 0 (wireLen_pos v), hlen]
  exact ⟨hlength, (wireValue_congr fun i hi => h i (hlength ▸ hi)).trans hval⟩

/-- After an encode answered OK, a state that keeps the bytes it wrote holds a complete encoding of its number at `off` (R85, R120). -/
theorem complete_after_encode {i : Instr} {j : EncodeJob} (hj : encodeJob i = some j) {s t s' : State} {p : Response} {len' : Nat}
    (hexec : exec i s = .next t) (hrsp : t.rsp = some p) (hok : p.status = 0) (hlen : j.off + wireLen j.v ≤ len')
    (hkept : ∀ x, j.off ≤ x → x < j.off + wireLen j.v → s'.buf.read x = t.buf.read x) :
    Complete s' j.off len' ∧ lengthAt s' j.off = wireLen j.v ∧ valueAt s' j.off = j.v := by
  obtain ⟨hwritten, -⟩ := holdsEncoding_of_exec_encode hj hexec hrsp hok
  have hbytes : ∀ i < wireLen j.v, byteAt s' j.off i = wireByte j.v i := fun i hi => by
    rw [byteAt, hkept _ (by omega) (by omega), hwritten i hi]
  obtain ⟨hlength, hvalue⟩ := lengthAt_valueAt_of_wireBytes (encodeJob_value_lt_two_pow_128 hj) hbytes
  have hpos := wireLen_pos j.v
  exact ⟨⟨by omega, by omega⟩, hlength, hvalue⟩

/-- Settles O36: the encode leaves a complete encoding of the operand's number, which fits its width, so the decode answers it. -/
theorem unsignedRoundTrip : Obligations.UnsignedRoundTrip := by
  unfold Obligations.UnsignedRoundTrip
  intro w enc dec henc hdec a off len len' s t s' p hexec hrsp hok hlen hkept
  rw [← unsignedJob_v w a off len] at hlen hkept ⊢
  obtain ⟨hc, hlength, hvalue⟩ :=
    complete_after_encode (encodeJob_of_mem_unsignedEncodes henc a off len) hexec hrsp hok hlen hkept
  have hfits : valueAt s' off < 2 ^ w := hvalue ▸ BitVec.isLt (operand w a)
  obtain ⟨t', hdecode, hanswer, -⟩ := unsignedDecodeAnswersTheNumber w dec hdec off len' s' hc hfits
  rw [← hlength, ← hvalue]
  exact ⟨t', hdecode, hanswer⟩

/-! ## The largest number an encoding carries (R84) -/

theorem carried_lt_two_pow_128 {b0 : Byte} {rest : List Byte} (hlen : rest.length + 1 = encTotalLen b0) :
    carried (classify b0) b0 rest < 2 ^ 128 :=
  (carried_lt_two_pow_payloadBits hlen).trans_le (Nat.pow_le_pow_right (by decide) (payloadBits_classify_le b0))

theorem classify_large_bounds {b0 : Byte} {n : Nat} (h : classify b0 = .large n) : 1 ≤ n ∧ n ≤ 16 := by
  rcases classify_cases b0 with ⟨hsh, -⟩ | ⟨l, hsh, -⟩ | ⟨m, hsh, h1, h16, -⟩ <;> rw [h] at hsh <;> cases hsh
  exact ⟨h1, h16⟩

theorem classify_medium_bounds {b0 : Byte} {l : Nat} (h : classify b0 = .medium l) : 2 ≤ l ∧ l ≤ 4 := by
  rcases classify_cases b0 with ⟨hsh, -⟩ | ⟨m, hsh, h2, h4, -⟩ | ⟨n, hsh, -⟩ <;> rw [h] at hsh <;> cases hsh
  exact ⟨h2, h4⟩

/-- A medium form carries at most 28 bits (R50, R84). -/
theorem carried_lt_two_pow_28_of_medium {b0 : Byte} {rest : List Byte} {l : Nat} (hlen : rest.length + 1 = encTotalLen b0)
    (h : classify b0 = .medium l) : carried (classify b0) b0 rest < 2 ^ 28 := by
  obtain ⟨-, h4⟩ := classify_medium_bounds h
  have hlt := carried_lt_two_pow_payloadBits hlen
  have hbits : (classify b0).payloadBits ≤ 28 := by rw [h, Shape.payloadBits]; omega
  exact hlt.trans_le (Nat.pow_le_pow_right (by decide) hbits)

theorem bufferValue_lt_two_pow_128 (s : State) (off : Nat) : bufferValue s off < 2 ^ 128 :=
  carried_lt_two_pow_128 (readBytes_payload_length s off)

/-- A decode of 128 bits answers ERR_SHORT, or OK without truncation (R84). -/
theorem runDecode_128_response (back : BitVec 128 → BitVec 128) (off len : Nat) (s : State) :
    ∃ t p, runDecode 128 back off len s = .next t ∧ t.rsp = some p ∧ p.status ≠ 3 ∧ p.trunc = false := by
  have hlt := bufferValue_lt_two_pow_128 s off
  obtain ⟨-, h⟩ | ⟨-, -, h⟩ | ⟨-, hwide, -⟩ | ⟨-, hwide, -⟩ := runDecode_cases 128 back off len s
  · exact ⟨_, _, h, rfl, by decide, rfl⟩
  · exact ⟨_, _, h, rfl, by rw [okResponse_status]; decide, rfl⟩
  · omega
  · omega

/-- Settles O14: the bound is the payload bits of the shape, and 16 payload bytes of ones attain it. -/
theorem noWidthMismatchAt128 : Obligations.NoWidthMismatchAt128 := by
  unfold Obligations.NoWidthMismatchAt128
  refine ⟨fun b0 rest hlen => ⟨?_, fun _ => classify_large_bounds, fun _ => carried_lt_two_pow_28_of_medium hlen⟩, ?_,
    runDecode_128_response id⟩
  · have hlt := carried_lt_two_pow_128 hlen
    omega
  · obtain ⟨b0, rest, hsh, hrest, hcar⟩ := exists_large_encoding (n := 16) (v := 2 ^ 128 - 1) (by decide) (by decide) (by decide)
    exact ⟨b0, rest, by rw [encTotalLen, hsh, Shape.totalLen, hrest], hcar⟩

/-! ## The values of byte 0 that can carry a number too wide (R86) -/

/-- The little-endian payload of `n` bytes with only its top bit set. -/
theorem leValue_leBytes_top_bit {n : Nat} (h : 1 ≤ n) : leValue (leBytes n (2 ^ (8 * n - 1))) = 2 ^ (8 * n - 1) := by
  rw [leValue_leBytes, ← two_pow_eight_mul, Nat.mod_eq_of_lt (Nat.pow_lt_pow_right (by decide) (by omega))]

/-- The medium and large forms can carry a number with the top one of their payload bits set. -/
theorem exists_carried_top_bit {b0 : Byte} (h : classify b0 ≠ .small) :
    ∃ rest : List Byte, rest.length + 1 = encTotalLen b0 ∧ 2 ^ ((classify b0).payloadBits - 1) ≤ carried (classify b0) b0 rest := by
  rw [encTotalLen]
  rcases classify_cases b0 with ⟨hsh, -⟩ | ⟨l, hsh, h2, h4, -⟩ | ⟨n, hsh, h1, -⟩
  · exact absurd hsh h
  · refine ⟨leBytes (l - 1) (2 ^ (8 * (l - 1) - 1)), ?_, ?_⟩ <;> rw [hsh]
    · rw [leBytes_length, Shape.totalLen]; omega
    · rw [Shape.payloadBits, carried_medium, leValue_leBytes_top_bit (by omega), ← Nat.pow_add,
        show 8 * (l - 1) - 1 + (8 - l) = 7 * l - 1 by omega]
      exact Nat.le_add_left _ _
  · refine ⟨leBytes n (2 ^ (8 * n - 1)), ?_, ?_⟩ <;> rw [hsh]
    · rw [leBytes_length, Shape.totalLen]
    · rw [Shape.payloadBits, carried, leValue_leBytes_top_bit h1]

/-- Byte 0 can begin an encoding of a number too wide for `w` bits exactly if its shape has more than `w` payload bits. The small form's
number is byte 0 itself, so it need not reach all of its 7 bits. -/
theorem exists_carried_ge_iff (b0 : Byte) {w : Nat} (hw : 7 ≤ w) :
    (∃ rest : List Byte, rest.length + 1 = encTotalLen b0 ∧ 2 ^ w ≤ carried (classify b0) b0 rest) ↔ w < (classify b0).payloadBits := by
  constructor
  · rintro ⟨rest, hlen, hge⟩
    exact (Nat.pow_lt_pow_iff_right (a := 2) (by decide)).1 (hge.trans_lt (carried_lt_two_pow_payloadBits hlen))
  · intro hlt
    have hsh : classify b0 ≠ .small := fun h => by rw [h, Shape.payloadBits] at hlt; omega
    obtain ⟨rest, hlen, htop⟩ := exists_carried_top_bit hsh
    exact ⟨rest, hlen, (Nat.pow_le_pow_right (by decide) (by omega)).trans htop⟩

/-- The payload bits of an encoding by the rows of R52. -/
theorem payloadBits_classify_eq (b0 : Byte) : (classify b0).payloadBits =
    if b0.toNat < 0x80 then 7 else if b0.toNat < 0xC0 then 14 else if b0.toNat < 0xE0 then 21 else if b0.toNat < 0xF0 then 28
    else 8 * (b0.toNat - 0xF0 + 1) := by
  rw [classify_eq]
  split_ifs <;> rfl

/-- Settles O15: in each column, the rows of R52 with more payload bits than the target has. -/
theorem widthMismatchByPrefixByte : Obligations.WidthMismatchByPrefixByte := by
  unfold Obligations.WidthMismatchByPrefixByte
  intro b0
  refine ⟨?_, ?_, ?_, ?_, (not_congr (exists_carried_ge_iff b0 (by decide))).2 (Nat.not_lt.2 (payloadBits_classify_le b0))⟩ <;>
    rw [exists_carried_ge_iff b0 (by decide), payloadBits_classify_eq] <;> split_ifs <;> omega

end Sys2Proof.Machine
end

section
/-! The zigzag mapping (42_zigzag.md): its two directions on plain numbers (R92, R93), that the patterns follow them and so are inverse to each
other (R94), the codes of the extremes and of small magnitudes (R95), and what a raw zigzag operation answers (R96). -/

namespace Sys2Proof.Machine

open Sys2Proof.Safety

/-! ## The two directions on numbers (R92, R93, R95) -/

/-- The forms of R92 and R93 are inverse to each other: they pair the same numbers. -/
theorem unzigzagNumber_eq_iff {u : Nat} {s : Int} : unzigzagNumber u = s ↔ (u : Int) = zigzagNumber s := by
  unfold unzigzagNumber zigzagNumber
  split_ifs <;> omega

theorem zigzagNumber_inj {s s' : Int} : zigzagNumber s = zigzagNumber s' ↔ s = s' := by
  unfold zigzagNumber
  split_ifs <;> omega

/-- The greatest signed value has the code `2^W − 2` (R95). -/
theorem zigzagNumber_greatest {w : Nat} (hw : 0 < w) : ((2 ^ w - 2 : Nat) : Int) = zigzagNumber (2 ^ (w - 1) - 1) := by
  have hpow : 2 * 2 ^ (w - 1) = 2 ^ w := mul_pow_sub_one hw.ne' 2
  have hpos := Nat.two_pow_pos (w - 1)
  have hcast : ((2 ^ (w - 1) : Nat) : Int) = 2 ^ (w - 1) := Nat.cast_pow 2 (w - 1)
  rw [zigzagNumber, if_pos (by omega)]
  omega

/-- The least signed value has the code `2^W − 1` (R95). -/
theorem zigzagNumber_least {w : Nat} (hw : 0 < w) : ((2 ^ w - 1 : Nat) : Int) = zigzagNumber (-2 ^ (w - 1)) := by
  have hpow : 2 * 2 ^ (w - 1) = 2 ^ w := mul_pow_sub_one hw.ne' 2
  have hpos := Nat.two_pow_pos (w - 1)
  have hcast : ((2 ^ (w - 1) : Nat) : Int) = 2 ^ (w - 1) := Nat.cast_pow 2 (w - 1)
  rw [zigzagNumber, if_neg (by omega)]
  omega

/-- Small magnitudes have small codes (R95). -/
theorem zigzagNumber_lt_128 {s : Int} (hlo : -64 < s) (hhi : s < 64) : zigzagNumber s < 128 := by
  unfold zigzagNumber
  split_ifs <;> omega

/-! ## The patterns follow the numbers (R92 to R95) -/

/-- ZZ_DEC maps the code as R93 says. -/
theorem zzDec_toInt_eq_unzigzagNumber {w : Nat} (hw : 0 < w) (u : BitVec w) : (zzDec u).toInt = unzigzagNumber u.toNat := by
  have hpow : 2 * 2 ^ (w - 1) = 2 ^ w := mul_pow_sub_one hw.ne' 2
  have hlt := u.isLt
  rw [BitVec.toInt_eq_toNat_cond, zzDec_toNat, unzigzagNumber]
  split_ifs <;> omega

/-- `u` is the code of `x` exactly if `x` is the value of `u` (R94). -/
theorem zzDec_eq_iff_eq_zzEnc {w : Nat} (hw : 0 < w) {u x : BitVec w} : zzDec u = x ↔ u = zzEnc x := by
  rw [← BitVec.toInt_inj, zzDec_toInt_eq_unzigzagNumber hw, unzigzagNumber_eq_iff, ← zzEnc_toNat_eq_zigzagNumber hw, Int.ofNat_inj,
    BitVec.toNat_inj]

/-- A signed value and its code stand for each other, also as numbers. -/
theorem toInt_eq_iff_zzEnc_toNat_eq {w : Nat} (hw : 0 < w) (x : BitVec w) {s : Int} {n : Nat} (h : (n : Int) = zigzagNumber s) :
    x.toInt = s ↔ (zzEnc x).toNat = n := by
  rw [← Int.ofNat_inj, zzEnc_toNat_eq_zigzagNumber hw, h, zigzagNumber_inj]

/-- A value within the width is mapped to its code. -/
theorem zzEnc_ofInt {w : Nat} (hw : 0 < w) {s : Int} {n : Nat} (hlo : -2 ^ (w - 1) ≤ s) (hhi : s < 2 ^ (w - 1))
    (h : (n : Int) = zigzagNumber s) : zzEnc (BitVec.ofInt w s) = BitVec.ofNat w n := by
  have hcode := (toInt_eq_iff_zzEnc_toNat_eq hw (BitVec.ofInt w s) h).1 (BitVec.toInt_ofInt_eq_self hw hlo hhi)
  rw [← hcode, BitVec.ofNat_toNat, BitVec.setWidth_eq]

/-- A code within the width is mapped to the value it stands for. -/
theorem zzDec_ofNat_toInt {w : Nat} (hw : 0 < w) {s : Int} {n : Nat} (hn : n < 2 ^ w) (h : (n : Int) = zigzagNumber s) :
    (zzDec (BitVec.ofNat w n)).toInt = s := by
  rw [zzDec_toInt_eq_unzigzagNumber hw, BitVec.toNat_ofNat, Nat.mod_eq_of_lt hn]
  exact unzigzagNumber_eq_iff.2 h

theorem zzEnc_toNat_lt_128 {w : Nat} (hw : 0 < w) {x : BitVec w} (hlo : -64 < x.toInt) (hhi : x.toInt < 64) : (zzEnc x).toNat < 128 := by
  have hcode := zigzagNumber_lt_128 hlo hhi
  rw [← zzEnc_toNat_eq_zigzagNumber hw] at hcode
  omega

/-! ## The raw operations (R96) -/

theorem exec_of_mem_zigzagEncodes {w : Nat} {mk : Word → Instr} (h : (w, mk) ∈ zigzagEncodes) (a : Word) (s : State) :
    exec (mk a) s = runMap w zzEnc a s := by
  simp only [zigzagEncodes, List.mem_cons, Prod.mk.injEq, List.not_mem_nil, or_false] at h
  obtain ⟨rfl, rfl⟩ | ⟨rfl, rfl⟩ | ⟨rfl, rfl⟩ | ⟨rfl, rfl⟩ | ⟨rfl, rfl⟩ := h <;> rfl

theorem exec_of_mem_zigzagDecodes {w : Nat} {mk : Word → Instr} (h : (w, mk) ∈ zigzagDecodes) (a : Word) (s : State) :
    exec (mk a) s = runMap w zzDec a s := by
  simp only [zigzagDecodes, List.mem_cons, Prod.mk.injEq, List.not_mem_nil, or_false] at h
  obtain ⟨rfl, rfl⟩ | ⟨rfl, rfl⟩ | ⟨rfl, rfl⟩ | ⟨rfl, rfl⟩ | ⟨rfl, rfl⟩ := h <;> rfl

theorem pos_of_mem_zigzagEncodes {w : Nat} {mk : Word → Instr} (h : (w, mk) ∈ zigzagEncodes) : 0 < w := by
  simp only [zigzagEncodes, List.mem_cons, Prod.mk.injEq, List.not_mem_nil, or_false] at h
  omega

theorem pos_of_mem_zigzagDecodes {w : Nat} {mk : Word → Instr} (h : (w, mk) ∈ zigzagDecodes) : 0 < w := by
  simp only [zigzagDecodes, List.mem_cons, Prod.mk.injEq, List.not_mem_nil, or_false] at h
  omega

/-- A raw mapping answers OK with the mapped operand and touches no byte (R96, R111). -/
theorem runMap_answered (w : Nat) (f : BitVec w → BitVec w) (a : Word) (s : State) :
    ∃ t, runMap w f a s = .next t ∧ Answered s t ⟨0, false, (f (a.setWidth w)).setWidth 128, 0⟩ ∧ SameBuffer s t := by
  rw [runMap_eq, operand_eq_setWidth]
  exact ⟨_, rfl, answered_respond_self s _, sameBuffer_respond s _⟩

/-! ## The obligations -/

theorem eight_le_of_mem_widths {w : Nat} (h : w ∈ [8, 16, 32, 64, 128]) : 8 ≤ w := by
  simp only [List.mem_cons, List.not_mem_nil, or_false] at h
  omega

/-- Settles O31: each operation is the raw mapping by ZZ_ENC or ZZ_DEC, whose results are the numbers of R92 and R93. -/
theorem zigzagOperationsAnswer : Obligations.ZigzagOperationsAnswer := by
  unfold Obligations.ZigzagOperationsAnswer
  refine ⟨fun w mk hmem a s => ?_, fun w mk hmem a s => ?_⟩
  · obtain ⟨t, hrun, hanswer, hbuf⟩ := runMap_answered w zzEnc a s
    exact ⟨t, _, (exec_of_mem_zigzagEncodes hmem a s).trans hrun, zzEnc_toNat_eq_zigzagNumber (pos_of_mem_zigzagEncodes hmem) _,
      hanswer, hbuf⟩
  · obtain ⟨t, hrun, hanswer, hbuf⟩ := runMap_answered w zzDec a s
    refine ⟨t, _, (exec_of_mem_zigzagDecodes hmem a s).trans hrun, ?_, hanswer, hbuf⟩
    rw [zzDec_toInt_eq_unzigzagNumber (pos_of_mem_zigzagDecodes hmem), BitVec.toNat_setWidth]

/-- Settles O32: both inverses are the one equivalence, and the four listed values lie within the width. -/
theorem zigzagIsABijection : Obligations.ZigzagIsABijection := by
  unfold Obligations.ZigzagIsABijection
  intro w hmem
  have h8 := eight_le_of_mem_widths hmem
  have hw : 0 < w := by omega
  have hrange : (2 : Int) ^ 7 ≤ 2 ^ (w - 1) := pow_le_pow_right₀ (by decide) (by omega)
  exact ⟨fun _ => (zzDec_eq_iff_eq_zzEnc hw).2 rfl, fun _ => ((zzDec_eq_iff_eq_zzEnc hw).1 rfl).symm,
    zzEnc_ofInt hw (by omega) (by omega) (n := 0) (by decide), zzEnc_ofInt hw (by omega) (by omega) (n := 1) (by decide),
    zzEnc_ofInt hw (by omega) (by omega) (n := 2) (by decide), zzEnc_ofInt hw (by omega) (by omega) (n := 3) (by decide)⟩

/-- Settles O33: the extremes and their codes are paired as numbers, and a code below 2^7 has the small form. -/
theorem zigzagExtremes : Obligations.ZigzagExtremes := by
  unfold Obligations.ZigzagExtremes
  intro w hmem x
  have h8 := eight_le_of_mem_widths hmem
  have hw : 0 < w := by omega
  have hpos := Nat.two_pow_pos w
  refine ⟨toInt_eq_iff_zzEnc_toNat_eq hw x (zigzagNumber_greatest hw), toInt_eq_iff_zzEnc_toNat_eq hw x (zigzagNumber_least hw),
    zzDec_ofNat_toInt hw (by omega) (zigzagNumber_greatest hw), zzDec_ofNat_toInt hw (by omega) (zigzagNumber_least hw),
    fun hlo hhi => ?_⟩
  have hcode := zzEnc_toNat_lt_128 hw hlo hhi
  exact ⟨hcode, wireLen_small _ hcode⟩

end Sys2Proof.Machine
end

section
/-! The bit reversal (43_float_bitrev.md): that REV is the only pattern with the bits in reverse order (R107), that it is its own inverse
(R108), and what a raw bit-reversal operation answers (R111). -/

namespace Sys2Proof.Machine

open Sys2Proof.Safety

/-! ## The reversal of a pattern (R107, R108) -/

/-- REV puts bit `i` at `W−1−i` (R107). -/
theorem reversed_bitRev {w : Nat} (x : BitVec w) : Reversed x (bitRev x) := by
  intro i hi
  have hmirror : w - 1 - (w - 1 - i) = i := by omega
  have hlt : w - 1 - i < w := by omega
  rw [getLsbD_bitRev, decide_eq_true hlt, Bool.true_and, hmirror]

/-- To have the bits in reverse order goes both ways: `i ↦ W−1−i` is its own inverse. -/
theorem reversed_symm {w : Nat} {x y : BitVec w} (h : Reversed x y) : Reversed y x := by
  intro i hi
  have hmirror : w - 1 - (w - 1 - i) = i := by omega
  rw [← h (w - 1 - i) (by omega), hmirror]

/-! ## The raw operations (R111) -/

theorem exec_of_mem_bitReversals {w : Nat} {mk : Word → Instr} (h : (w, mk) ∈ bitReversals) (a : Word) (s : State) :
    exec (mk a) s = runMap w bitRev a s := by
  simp only [bitReversals, List.mem_cons, Prod.mk.injEq, List.not_mem_nil, or_false] at h
  obtain ⟨rfl, rfl⟩ | ⟨rfl, rfl⟩ | ⟨rfl, rfl⟩ | ⟨rfl, rfl⟩ := h <;> rfl

/-! ## The obligations -/

/-- Settles O34: each operation is the raw mapping by REV, which reverses the bits of the operand. -/
theorem bitReversalOperationsAnswer : Obligations.BitReversalOperationsAnswer := by
  unfold Obligations.BitReversalOperationsAnswer
  intro w mk hmem a s
  obtain ⟨t, hrun, hanswer, hbuf⟩ := runMap_answered w bitRev a s
  exact ⟨t, bitRev (a.setWidth w), (exec_of_mem_bitReversals hmem a s).trans hrun, reversed_bitRev _, hanswer, hbuf⟩

/-- Settles O35: `x` is `bitRev x` with its bits in reverse order, and only the reversal of `bitRev x` is that. -/
theorem bitReversalIsItsOwnInverse : Obligations.BitReversalIsItsOwnInverse := by
  unfold Obligations.BitReversalIsItsOwnInverse
  intro w x
  exact (eq_bitRev_of_reversed (reversed_symm (reversed_bitRev x))).symm

end Sys2Proof.Machine
end

section
/-! The composite codec (44_composite.md): a decode whose inverse mapping undoes the encode's mapping gives the encoded pattern back, and the
signed and the float mapping are undone by their inverses (R94, R108, R120). -/

namespace Sys2Proof.Machine

open Sys2Proof.Safety

/-! ## A pattern zero-extended (R22) -/

theorem result_operand {w : Nat} (hw : w ≤ 128) (a : Word) : result (operand w a) = BitVec.ofNat 128 (a.toNat % 2 ^ w) := by
  rw [← operand_toNat, ← result_ofNat hw (operand w a).isLt, BitVec.ofNat_toNat, BitVec.setWidth_eq]

/-! ## The inverse mappings (R94, R108) -/

theorem zzDec_zzEnc {w : Nat} (hw : 0 < w) (x : BitVec w) : zzDec (zzEnc x) = x := (zzDec_eq_iff_eq_zzEnc hw).2 rfl

theorem bitRev_bitRev {w : Nat} (x : BitVec w) : bitRev (bitRev x) = x := bitReversalIsItsOwnInverse w x

/-! ## What a decode answers after an encode (R120) -/

/-- After an encode of a mapped operand answered OK, a state that keeps the bytes it wrote decodes to the operand, provided `back` undoes
the mapping `forth`; any buffer length that holds the encoding and any build will do. -/
theorem runDecode_after_encode {w : Nat} (hw : w ≤ 128) {forth back : BitVec w → BitVec w} (hback : ∀ x, back (forth x) = x) {i : Instr}
    {a : Word} {off len len' : Nat} (hj : encodeJob i = some ⟨w, (forth (operand w a)).toNat, off, len⟩) {s t s' : State} {p : Response}
    (hexec : exec i s = .next t) (hrsp : t.rsp = some p) (hok : p.status = 0)
    (hlen : off + wireLen (forth (operand w a)).toNat ≤ len')
    (hkept : ∀ x, off ≤ x → x < off + wireLen (forth (operand w a)).toNat → s'.buf.read x = t.buf.read x) :
    ∃ t', runDecode w back off len' s' = .next t' ∧
      Answered s' t' ⟨0, false, BitVec.ofNat 128 (a.toNat % 2 ^ w), BitVec.ofNat 5 (wireLen (forth (operand w a)).toNat)⟩ := by
  obtain ⟨hc, hlength, hvalue⟩ := complete_after_encode hj hexec hrsp hok hlen hkept
  obtain ⟨t', hdecode, hanswer, -⟩ := runDecode_of_fits back hc (hvalue ▸ (forth (operand w a)).isLt)
  have hpattern : back (BitVec.ofNat w (forth (operand w a)).toNat) = operand w a := by
    rw [BitVec.ofNat_toNat, BitVec.setWidth_eq, hback]
  rw [hlength, hvalue, hpattern, result_operand hw] at hanswer
  exact ⟨t', hdecode, hanswer⟩

/-! ## The obligation -/

theorem width_le_of_mem_signedDecodes {w : Nat} {mk : Nat → Nat → Instr} (h : (w, mk) ∈ signedDecodes) : w ≤ 128 := by
  simp only [signedDecodes, List.mem_cons, Prod.mk.injEq, List.not_mem_nil, or_false] at h
  omega

theorem width_le_of_mem_floatDecodes {w : Nat} {mk : Nat → Nat → Instr} (h : (w, mk) ∈ floatDecodes) : w ≤ 128 := by
  simp only [floatDecodes, List.mem_cons, Prod.mk.injEq, List.not_mem_nil, or_false] at h
  omega

/-- Settles O37: ZZ_DEC undoes ZZ_ENC and REV undoes itself, so in both families the decode maps the number back to the operand. -/
theorem compositeRoundTrip : Obligations.CompositeRoundTrip := by
  unfold Obligations.CompositeRoundTrip
  refine ⟨fun w enc dec henc hdec a off len len' s t s' p v hv hexec hrsp hok hlen hkept => ?_,
    fun w enc dec henc hdec a off len len' s t s' p u hu hexec hrsp hok hlen hkept => ?_⟩
  · have hpos := pos_of_mem_signedEncodes henc
    rw [← signedJob_v hpos off len hv] at hlen hkept ⊢
    rw [exec_of_mem_signedDecodes hdec]
    exact runDecode_after_encode (width_le_of_mem_signedDecodes hdec) (zzDec_zzEnc hpos) (encodeJob_of_mem_signedEncodes henc a off len)
      hexec hrsp hok hlen hkept
  · rw [← floatJob_v off len hu] at hlen hkept ⊢
    rw [exec_of_mem_floatDecodes hdec]
    exact runDecode_after_encode (width_le_of_mem_floatDecodes hdec) bitRev_bitRev (encodeJob_of_mem_floatEncodes henc a off len)
      hexec hrsp hok hlen hkept

end Sys2Proof.Machine
end

section
/-! Failures (60_exceptions.md): what a decode answers when the number is too wide for it (R139, R140), that a request is answered OK or raises
one failure and does nothing else (R142, R145), and the step of a request with an illegal code (R141). -/

namespace Sys2Proof.Machine

open Sys2Proof.Safety

/-! ## A number too wide (R139, R140) -/

/-- Under REJECT a complete encoding whose number is too wide is answered ERR_WIDTH with its length (R139). -/
theorem runDecode_of_too_wide_reject {w : Nat} (back : BitVec w → BitVec w) {off len : Nat} {s : State} (hc : Complete s off len)
    (hv : 2 ^ w ≤ valueAt s off) (hp : s.build.widthPolicy = .reject) :
    ∃ t, runDecode w back off len s = .next t ∧ Answered s t ⟨3, false, 0, BitVec.ofNat 5 (lengthAt s off)⟩ ∧ SameBuffer s t := by
  have hcases := runDecode_cases w back off len s
  rw [bufferValue_eq_valueAt] at hcases
  obtain ⟨hshort, -⟩ | ⟨-, hfits, -⟩ | ⟨-, -, -, h⟩ | ⟨-, -, htruncate, -⟩ := hcases
  · exact absurd hc hshort
  · omega
  · exact ⟨_, h, answered_raise s _, sameBuffer_raise s _⟩
  · rw [hp] at htruncate
    nomatch htruncate

/-- Under TRUNCATE a complete encoding whose number is too wide is answered its low bits, mapped back and flagged (R140). -/
theorem runDecode_of_too_wide_truncate {w : Nat} (back : BitVec w → BitVec w) {off len : Nat} {s : State} (hc : Complete s off len)
    (hv : 2 ^ w ≤ valueAt s off) (hp : s.build.widthPolicy = .truncate) :
    ∃ t, runDecode w back off len s = .next t ∧
      Answered s t ⟨0, true, result (back (BitVec.ofNat w (valueAt s off % 2 ^ w))), BitVec.ofNat 5 (lengthAt s off)⟩ ∧
      SameBuffer s t := by
  have hcases := runDecode_cases w back off len s
  rw [bufferValue_eq_valueAt] at hcases
  obtain ⟨hshort, -⟩ | ⟨-, hfits, -⟩ | ⟨-, -, hreject, -⟩ | ⟨-, -, -, h⟩ := hcases
  · exact absurd hc hshort
  · omega
  · rw [hp] at hreject
    nomatch hreject
  · exact ⟨_, h, answered_respond_self s _, sameBuffer_respond s _⟩

theorem pos_of_mem_signedDecodes {w : Nat} {mk : Nat → Nat → Instr} (h : (w, mk) ∈ signedDecodes) : 0 < w := by
  simp only [signedDecodes, List.mem_cons, Prod.mk.injEq, List.not_mem_nil, or_false] at h
  omega

/-- A number and its low `W` bits have one `W`-bit pattern. -/
theorem ofNat_mod_two_pow (w v : Nat) : BitVec.ofNat w (v % 2 ^ w) = BitVec.ofNat w v :=
  BitVec.eq_of_toNat_eq (by rw [BitVec.toNat_ofNat, BitVec.toNat_ofNat, Nat.mod_mod])

/-- Settles O26: each decode is the shared one, which rejects the number before it maps it back. -/
theorem tooWideIsRejected : Obligations.TooWideIsRejected := by
  unfold Obligations.TooWideIsRejected
  intro w mk hmem _ off len s hc hv hp
  obtain ⟨back, hexec⟩ := exists_runDecode_of_mem_decodes hmem
  rw [hexec]
  exact runDecode_of_too_wide_reject back hc hv hp

/-- Settles O27: each family maps the low bits back by its own mapping, the identity, ZZ_DEC (R93) or REV (R107). -/
theorem tooWideIsTruncatedAndFlagged : Obligations.TooWideIsTruncatedAndFlagged := by
  unfold Obligations.TooWideIsTruncatedAndFlagged
  refine ⟨fun w mk hmem off len s hc hv hp => ?_, fun w mk hmem off len s hc hv hp => ?_, fun w mk hmem off len s hc hv hp => ?_⟩
  · rw [exec_of_mem_unsignedDecodes hmem,
      ← result_ofNat (width_le_of_mem_unsignedDecodes hmem) (Nat.mod_lt (valueAt s off) (Nat.two_pow_pos w))]
    exact runDecode_of_too_wide_truncate id hc hv hp
  · obtain ⟨t, hdecode, hanswer, hbuf⟩ := runDecode_of_too_wide_truncate zzDec hc hv hp
    refine ⟨t, _, (exec_of_mem_signedDecodes hmem off len s).trans hdecode, ?_, hanswer, hbuf⟩
    rw [zzDec_toInt_eq_unzigzagNumber (pos_of_mem_signedDecodes hmem), BitVec.toNat_ofNat, Nat.mod_mod]
  · obtain ⟨t, hdecode, hanswer, hbuf⟩ := runDecode_of_too_wide_truncate bitRev hc hv hp
    refine ⟨t, _, (exec_of_mem_floatDecodes hmem off len s).trans hdecode, ?_, hanswer, hbuf⟩
    rw [ofNat_mod_two_pow]
    exact reversed_bitRev _

/-! ## A failure is only a response (R142, R145) -/

/-- Every failure has a status of its own, none of them OK (R136). -/
theorem Failure.response_status_ne_ok (f : Failure) : f.response.status ≠ statusOk := by
  cases f with
  | width n => exact (by decide : statusWidth ≠ statusOk)
  | capacity | short | illegalOp => decide

/-- After a failure the caller's cursor stays (R23). -/
theorem State.threadCursor_raise (s : State) (f : Failure) (i : Instr) (r : Request) : (s.raise f).threadCursor i r = s.raise f :=
  if_neg fun h => f.response_status_ne_ok h.1

/-- The outcome `o` of a request at `off` in state `s`: a response with status OK, or one failure raised on `s`, which, if it is ERR_WIDTH,
reports the length of the encoding at `off` (R139, R142, R145). -/
def OkOrRaised (s : State) (off : Nat) (o : Host.Outcome State Fault Refusal) : Prop :=
  (∃ t p, o = .next t ∧ t.rsp = some p ∧ p.status = 0) ∨
    ∃ f : Failure, o = .next (s.raise f) ∧ ∀ n, f = .width n → n = lengthAt s off

theorem runEncode_okOrRaised (j : EncodeJob) (s : State) (off : Nat) : OkOrRaised s off (runEncode j s) := by
  unfold runEncode
  split
  · exact .inl ⟨_, _, rfl, rfl, rfl⟩
  · exact .inr ⟨.capacity, rfl, fun _ h => nomatch h⟩

theorem runDecode_okOrRaised (w : Nat) (back : BitVec w → BitVec w) (off len : Nat) (s : State) :
    OkOrRaised s off (runDecode w back off len s) := by
  obtain ⟨-, h⟩ | ⟨-, -, h⟩ | ⟨-, -, -, h⟩ | ⟨-, -, -, h⟩ := runDecode_cases w back off len s
  · exact .inr ⟨.short, h, fun _ hf => nomatch hf⟩
  · exact .inl ⟨_, _, h, rfl, rfl⟩
  · exact .inr ⟨.width (lengthAt s off), h, fun _ hf => (Failure.width.inj hf).symm⟩
  · exact .inl ⟨_, _, h, rfl, rfl⟩

theorem runMap_okOrRaised (w : Nat) (f : BitVec w → BitVec w) (a : Word) (s : State) (off : Nat) : OkOrRaised s off (runMap w f a s) :=
  .inl ⟨_, _, runMap_eq w f a s, rfl, rfl⟩

/-- The operation of a request is one of the three shared ones, at the request's `off`. -/
theorem exec_okOrRaised {r : Request} {i : Instr} (h : decode r = .ok i) (s : State) : OkOrRaised s r.off (exec i s) := by
  obtain ⟨-, j, -, -, -, -, hexec⟩ | ⟨-, -, back, hexec⟩ | ⟨-, -, f, hexec⟩ := decode_is_shared r i h
  · exact hexec s ▸ runEncode_okOrRaised j s r.off
  · exact hexec s ▸ runDecode_okOrRaised i.width back r.off r.len s
  · exact hexec s ▸ runMap_okOrRaised i.width f r.a s r.off

/-- Threading the cursor turns no response into another, and a failure leaves nothing to thread. -/
theorem runRequest_okOrRaised (r : Request) (s : State) : OkOrRaised s r.off (runRequest r s) := by
  cases hd : decode r with
  | error e => exact .inr ⟨.illegalOp, runRequest_of_error hd s, fun _ h => nomatch h⟩
  | ok i =>
    rw [runRequest_of_ok hd]
    obtain ⟨t, p, hexec, hrsp, hok⟩ | ⟨f, hexec, hwidth⟩ := exec_okOrRaised hd s
    · rw [hexec]
      exact .inl ⟨_, p, rfl, (t.threadCursor_rsp i r).trans hrsp, hok⟩
    · rw [hexec]
      exact .inr ⟨f, congrArg _ (s.threadCursor_raise f i r), hwidth⟩

/-- Only ERR_WIDTH has the status 3, and only it reports a count (R136, R142). -/
theorem Failure.response_n (f : Failure) :
    (f.response.status ≠ 3 → f.response.n = 0) ∧ (f.response.status = 3 → ∃ n, f = .width n ∧ f.response.n = BitVec.ofNat 5 n) := by
  cases f with
  | width n => exact ⟨fun h => absurd rfl h, fun _ => ⟨n, rfl, rfl⟩⟩
  | capacity | short | illegalOp => exact ⟨fun _ => rfl, fun h => absurd h (by decide)⟩

/-- Settles O39: a request not answered OK raised one failure, whose response has these fields. -/
theorem failuresCarryNoValue : Obligations.FailuresCarryNoValue := by
  unfold Obligations.FailuresCarryNoValue
  intro r s
  obtain ⟨t, p, hrun, hrsp, hok⟩ | ⟨f, hrun, hwidth⟩ := runRequest_okOrRaised r s
  · exact ⟨t, p, hrun, hrsp, absurd hok⟩
  · obtain ⟨hcount, hlength⟩ := f.response_n
    refine ⟨_, _, hrun, s.raise_rsp f, fun _ => ⟨f.response_r, f.response_trunc, hcount, fun h3 => ?_⟩⟩
    obtain ⟨n, rfl, hn⟩ := hlength h3
    rw [hn, hwidth n rfl]

/-- Settles O40: a request not answered OK raised one failure, which changes nothing but the response. -/
theorem failuresArePrecise : Obligations.FailuresArePrecise := by
  unfold Obligations.FailuresArePrecise
  intro r s
  obtain ⟨t, p, hrun, hrsp, hok⟩ | ⟨f, hrun, -⟩ := runRequest_okOrRaised r s
  · exact ⟨t, p, hrun, hrsp, absurd hok⟩
  · exact ⟨_, _, hrun, s.raise_rsp f, fun _ => ⟨answered_raise s f, sameBuffer_raise s f⟩⟩

/-! ## An illegal code (R141) -/

/-- Settles O3: the BUSY step runs the request, and a code outside the table does not decode. -/
theorem illegalCodeIsAnswered : Obligations.IllegalCodeIsAnswered := by
  unfold Obligations.IllegalCodeIsAnswered
  intro s r hbusy hintrusions hillegal
  obtain ⟨e, hdecode⟩ := (exists_decode_error_iff r).2 hillegal
  rw [step_of_busy_nil hbusy hintrusions]
  exact runRequest_of_error_answered hdecode s

end Sys2Proof.Machine
end

section
/-! Reset (70_reset_and_hazards.md): between requests it clears the block alone (R155); during a request it leaves, of the bytes the request
would have written, some written and some not (R156). -/

namespace Sys2Proof.Machine

open Sys2Proof.Safety

/-! ## Reset between requests (R155) -/

/-- Settles O47: the IDLE step is the host's reset, which clears the transaction and the response port. -/
theorem resetClearsOnlyTheBlock : Obligations.ResetClearsOnlyTheBlock := by
  unfold Obligations.ResetClearsOnlyTheBlock
  refine ⟨⟨rfl, rsp_reset⟩, fun s ms hidle hinputs => ⟨({ s with inputs := ms }).resetBlock, ?_, rfl, rfl, rfl, rfl, rfl, rfl, rfl⟩⟩
  exact step_of_idle_cons hidle hinputs

/-! ## The bytes an encode plans to write (R68, R69) -/

/-- Under either capacity rule the room asked for holds the canonical encoding. -/
theorem canonicalBytes_length_le_encodeNeed (b : Build) {j : EncodeJob} (hv : j.v < 2 ^ j.w) (hw : j.w ≤ 128) :
    (canonicalBytes j.v).length ≤ encodeNeed b j := by
  unfold encodeNeed
  split
  · exact canonicalBytes_length_le_maxEncLen hw hv
  · exact (canonicalBytes_length_eq_encLen (hv.trans_le (Nat.pow_le_pow_right (by decide) hw))).le

theorem plannedBytes_length_le_maxLenOf {i : Instr} {j : EncodeJob} (hj : encodeJob i = some j) (b : Build) :
    (plannedBytes b j).length ≤ maxLenOf j.w := by
  unfold plannedBytes
  split
  · rw [canonicalBytes_length j.v (encodeJob_value_lt_two_pow_128 hj)]
    exact encodeJob_wireLen_le hj
  · exact Nat.zero_le _

/-- The planned bytes lie inside `[off, len)`; without room there are none (R70). -/
theorem plannedBytes_length_le_region {i : Instr} {j : EncodeJob} (hj : encodeJob i = some j) (b : Build) :
    (plannedBytes b j).length ≤ j.len - j.off := by
  obtain ⟨hv, hw⟩ := encodeJob_value_lt i j hj
  unfold plannedBytes
  split
  next hfits =>
    obtain ⟨-, hneed⟩ : j.off ≤ j.len ∧ encodeNeed b j ≤ j.len - j.off := by simpa [encodeFits] using hfits
    exact (canonicalBytes_length_le_encodeNeed b hv hw).trans hneed
  next => exact Nat.zero_le _

/-- An encode that completes writes exactly its planned bytes. -/
theorem runEncode_writes_plannedBytes (j : EncodeJob) (s : State) :
    ∃ t, runEncode j s = .next t ∧ t.buf = s.buf.writeBytes j.off (plannedBytes s.build j) := by
  unfold runEncode plannedBytes
  split <;> exact ⟨_, rfl, rfl⟩

/-! ## The request an encode's job comes from -/

/-- Only the MEM-ENC form has a job, and its width and region are those of the request. -/
theorem encodeJob_fields_of_decode {r : Request} {i : Instr} {j : EncodeJob} (hd : decode r = .ok i) (hj : encodeJob i = some j) :
    i.form = .memEnc ∧ j.w = i.width ∧ j.off = r.off ∧ j.len = r.len := by
  obtain ⟨hform, j', hj', hw, hoff, hlen, -⟩ | ⟨-, hnone, -⟩ | ⟨-, hnone, -⟩ := decode_is_shared r i hd
  · obtain rfl : j' = j := Option.some.inj (hj'.symm.trans hj)
    exact ⟨hform, hw, hoff, hlen⟩
  · exact nomatch hnone.symm.trans hj
  · exact nomatch hnone.symm.trans hj

/-- Every request completes (R161). -/
theorem exists_runRequest_next (r : Request) (s : State) : ∃ u, runRequest r s = .next u := by
  obtain ⟨u, _, hrun, -, -⟩ | ⟨_, hrun, -⟩ := runRequest_okOrRaised r s
  · exact ⟨u, hrun⟩
  · exact ⟨_, hrun⟩

/-- The buffer after a request for an encode. -/
theorem runRequest_writes_plannedBytes {r : Request} {i : Instr} {j : EncodeJob} (hd : decode r = .ok i) (hj : encodeJob i = some j)
    (s : State) : ∃ u, runRequest r s = .next u ∧ u.buf = s.buf.writeBytes j.off (plannedBytes s.build j) := by
  obtain ⟨t, hrun, hbuf⟩ := runEncode_writes_plannedBytes j s
  rw [runRequest_of_ok hd, exec_of_encodeJob i j s hj, hrun]
  exact ⟨_, rfl, (t.threadCursor_buf i r).trans hbuf⟩

/-! ## The bytes an abandoned encode leaves (R156) -/

/-- Whichever of the writes were made, a byte is as before them or as after all of them. -/
theorem Memory.read_writeSome_old_or_new (k : Nat) (m : Memory) (a i : Nat) (bs : List Byte) (x : Nat) :
    Memory.read (Memory.writeSome k m a i bs) x = Memory.read m x ∨
      Memory.read (Memory.writeSome k m a i bs) x = Memory.read (Memory.writeBytes m a bs) x := by
  rw [Memory.read_writeSome, Memory.read_writeBytes]
  split
  next hwritten => exact .inr (if_pos hwritten.1).symm
  next => exact .inl rfl

theorem Memory.read_writeSome_outside (k : Nat) (m : Memory) (a i : Nat) (bs : List Byte) (x : Nat) (h : x < a ∨ a + bs.length ≤ x) :
    Memory.read (Memory.writeSome k m a i bs) x = Memory.read m x := by
  obtain hold | hnew := Memory.read_writeSome_old_or_new k m a i bs x
  · exact hold
  · exact hnew.trans (Memory.read_writeBytes_outside bs m a x h)

/-- A reset that arrives while a request is BUSY abandons it (R156). -/
theorem step_of_busy_reset {s : State} {r : Request} {es : List Intrusion} (h : s.trans = .busy r) (hi : s.intrusions = .reset :: es) :
    step s = .next (({ s with intrusions := es }).abandon r) := by
  rw [step_of_busy h, hi]
  rfl

/-- Settles O48: the request either planned no write, and every byte is kept, or was an encode, some of whose planned bytes are written. -/
theorem resetAbandonsTheRequest : Obligations.ResetAbandonsTheRequest := by
  unfold Obligations.ResetAbandonsTheRequest
  intro s r es hbusy hintrusions
  have hstep := step_of_busy_reset hbusy hintrusions
  obtain ⟨htrans, hrsp, hresponses, hbuild, hcursor, hinputs, -⟩ := abandon_fields { s with intrusions := es } r
  obtain hbuf | ⟨i, j, hd, hj, hbuf⟩ := abandon_buf { s with intrusions := es } r
  · obtain ⟨u, hrun⟩ := exists_runRequest_next r s
    have hkept : SameBuffer s (({ s with intrusions := es }).abandon r) := fun x => congrArg (Memory.read · x) hbuf
    exact ⟨_, u, hstep, hrun, htrans, hrsp, hresponses, hbuild, hcursor, hinputs,
      fun x => .inl (hkept x), fun x _ => hkept x, fun _ _ x _ => hkept x, fun _ _ _ => hkept⟩
  · obtain ⟨u, hrun, hnew⟩ := runRequest_writes_plannedBytes hd hj s
    obtain ⟨hform, hw, hoff, hlen⟩ := encodeJob_fields_of_decode hd hj
    have hregion := plannedBytes_length_le_region hj s.build
    have hmax := plannedBytes_length_le_maxLenOf hj s.build
    refine ⟨_, u, hstep, hrun, htrans, hrsp, hresponses, hbuild, hcursor, hinputs, fun x => ?_, fun x hx => ?_, fun i' hd' x hx => ?_,
      fun i' hd' hform' => ?_⟩
    · rw [hbuf, hnew]
      exact Memory.read_writeSome_old_or_new ..
    · rw [hbuf]
      exact Memory.read_writeSome_outside _ _ _ _ _ _ (by dsimp only; omega)
    · obtain rfl : i = i' := Except.ok.inj (hd.symm.trans hd')
      rw [hw] at hmax
      rw [hbuf]
      exact Memory.read_writeSome_outside _ _ _ _ _ _ (by dsimp only; omega)
    · obtain rfl : i = i' := Except.ok.inj (hd.symm.trans hd')
      exact absurd hform hform'

end Sys2Proof.Machine
end

section
/-! What a request does, said once for all three forms (R16, R64): it writes bytes that rest on the build alone inside its region (R34, R71), and
gives an answer that rests on the build and, where it writes nothing, on the bytes of its region (R27). From that, every step keeps the
invariant. -/

namespace Sys2Proof.Machine

open Sys2Proof.Safety

/-! ## The shared operations as one update of the state -/

/-- The state after an operation wrote `bs` from `off` on and gave response `p`. -/
def State.perform (s : State) (off : Nat) (bs : List Byte) (p : Response) : State :=
  ({ s with buf := s.buf.writeBytes off bs }).respond p

theorem answered_perform (s : State) (off : Nat) (bs : List Byte) (p : Response) : Answered s (s.perform off bs p) p :=
  answered_respond s _ p

/-- The response of an encode (R71, R137). -/
def encodeResponse (b : Build) (j : EncodeJob) : Response :=
  if encodeFits b j then okResponse false 0 (canonicalBytes j.v).length else Failure.capacity.response

/-- The response of a decode whose number is mapped back by `back` (R79, R117, R119). -/
def DecodeResult.response {w : Nat} (back : BitVec w → BitVec w) : DecodeResult → Response
  | .short => Failure.short.response
  | .tooWide n => (Failure.width n).response
  | .value trunc v n => okResponse trunc (result (back (BitVec.ofNat w v))) n

theorem runEncode_eq_perform (j : EncodeJob) (s : State) :
    runEncode j s = .next (s.perform j.off (plannedBytes s.build j) (encodeResponse s.build j)) := by
  unfold runEncode plannedBytes encodeResponse
  split <;> rfl

theorem runDecode_eq_perform (w : Nat) (back : BitVec w → BitVec w) (off len : Nat) (s : State) :
    runDecode w back off len s = .next (s.perform off [] ((decodeUnsigned w off len s).response back)) := by
  unfold runDecode
  cases decodeUnsigned w off len s <;> rfl

theorem runMap_eq_perform (w : Nat) (f : BitVec w → BitVec w) (a : Word) (off : Nat) (s : State) :
    runMap w f a s = .next (s.perform off [] (okResponse false (result (f (operand w a))) 0)) := rfl

/-! ## Legal responses (R136, R139, R140, R142) -/

theorem ofNat_five_toNat {n : Nat} (h : n ≤ 17) : (BitVec.ofNat 5 n).toNat = n := by
  rw [BitVec.toNat_ofNat, Nat.mod_eq_of_lt (by omega)]

theorem legalResponse_ok {b : Build} {trunc : Bool} {n : Nat} (r : Word) (hn : n ≤ 17)
    (htrunc : trunc = true → b.widthPolicy = .truncate) : LegalResponse b (okResponse trunc r n) :=
  ⟨by simp [statusOk], by rw [okResponse_n, ofNat_five_toNat hn]; exact hn, fun h => absurd rfl h,
    fun h => absurd h (by simp [statusOk, statusWidth]), htrunc⟩

theorem legalResponse_failure {b : Build} {f : Failure}
    (hwidth : ∀ n, f = .width n → b.widthPolicy = .reject ∧ 2 ≤ n ∧ n ≤ 17) : LegalResponse b f.response := by
  cases f with
  | width n =>
    obtain ⟨hreject, hlo, hhi⟩ := hwidth n rfl
    have hn : (Failure.width n).response.n.toNat = n := ofNat_five_toNat hhi
    exact ⟨(by decide : statusWidth.toNat ≤ 4), by omega, fun _ => ⟨rfl, rfl, fun h => absurd rfl h⟩, fun _ => ⟨hreject, by omega⟩,
      fun h => nomatch h⟩
  | capacity | short | illegalOp =>
    exact ⟨by decide, by decide, fun _ => ⟨rfl, rfl, fun _ => rfl⟩, fun h => absurd h (by decide), fun h => nomatch h⟩

theorem legalResponse_encode {j : EncodeJob} (hv : j.v < 2 ^ 128) (b : Build) : LegalResponse b (encodeResponse b j) := by
  unfold encodeResponse
  split
  · exact legalResponse_ok 0 (canonicalBytes_length j.v hv ▸ wireLen_le j.v) (fun h => nomatch h)
  · exact legalResponse_failure fun _ h => nomatch h

theorem lengthAt_le (s : State) (off : Nat) : lengthAt s off ≤ 17 := prefixLen_le _

/-- An encoding of one byte carries at most 7 bits (R49). -/
theorem two_le_lengthAt {s : State} {off : Nat} (h : 2 ^ 7 ≤ bufferValue s off) : 2 ≤ lengthAt s off := by
  have hlen := wireLen_le_encTotalLen (carried_lt_two_pow_payloadBits (readBytes_payload_length s off))
  have htwo : wireLen (2 ^ 7) = 2 := by decide
  have hmono := wireLen_mono _ _ h
  rw [encTotalLen_eq] at hlen
  exact htwo ▸ hmono.trans hlen

theorem legalResponse_decode {w : Nat} (hw : 7 ≤ w) (back : BitVec w → BitVec w) (off len : Nat) (s : State) :
    LegalResponse s.build ((decodeUnsigned w off len s).response back) := by
  have hpow : 2 ^ 7 ≤ 2 ^ w := Nat.pow_le_pow_right (by decide) hw
  have hle := lengthAt_le s off
  by_cases hc : Complete s off len
  · rw [decodeUnsigned_of_complete w off len s hc]
    unfold widthCheck
    split
    next => exact legalResponse_ok _ hle (fun h => nomatch h)
    next hwide =>
      have htwo := two_le_lengthAt (s := s) (off := off) (by omega)
      cases hp : s.build.widthPolicy with
      | reject => exact legalResponse_failure fun n hn => by cases hn; exact ⟨hp, htwo, hle⟩
      | truncate => exact legalResponse_ok _ hle fun _ => hp
  · rw [decodeUnsigned_of_not_complete w off len s hc]
    exact legalResponse_failure fun _ h => nomatch h

/-! ## What a decode reads (R80) -/

/-- Whether an encoding is complete is read off byte 0, and that only inside the buffer. -/
theorem complete_congr {s s' : State} {off len : Nat} (h0 : off < len → s.buf.read off = s'.buf.read off) :
    Complete s off len ↔ Complete s' off len := by
  refine and_congr_right fun hlt => ?_
  rw [lengthAt, lengthAt, byteAt_zero, byteAt_zero, h0 hlt]

/-- DECODE_U rests on the build, on byte 0, and on the rest of the encoding if that is complete (R80). -/
theorem decodeUnsigned_congr (w : Nat) {off len : Nat} {s s' : State} (hbuild : s.build = s'.build)
    (h0 : off < len → s.buf.read off = s'.buf.read off)
    (hrest : off + lengthAt s off ≤ len → ∀ x, off < x → x < off + lengthAt s off → s.buf.read x = s'.buf.read x) :
    decodeUnsigned w off len s = decodeUnsigned w off len s' := by
  by_cases hc : Complete s off len
  · obtain ⟨hlt, hle⟩ := hc
    have hlength : lengthAt s off = lengthAt s' off := by rw [lengthAt, lengthAt, byteAt_zero, byteAt_zero, h0 hlt]
    have hvalue : bufferValue s off = bufferValue s' off := by
      unfold bufferValue
      rw [← hlength, ← h0 hlt, Memory.readBytes_congr s.buf s'.buf _ _ fun x _ _ => hrest hle x (by omega) (by omega)]
    rw [decodeUnsigned_of_complete w off len s ⟨hlt, hle⟩, decodeUnsigned_of_complete w off len s' ((complete_congr h0).1 ⟨hlt, hle⟩),
      hbuild, hvalue, hlength]
  · rw [decodeUnsigned_of_not_complete w off len s hc, decodeUnsigned_of_not_complete w off len s' (mt (complete_congr h0).2 hc)]

/-- In particular it rests on the build and the bytes of the region (R27, R35). -/
theorem decodeUnsigned_congr_region (w : Nat) {off len : Nat} {s s' : State} (hbuild : s.build = s'.build)
    (h : ∀ x, off ≤ x → x < len → s.buf.read x = s'.buf.read x) : decodeUnsigned w off len s = decodeUnsigned w off len s' :=
  decodeUnsigned_congr w hbuild (h off le_rfl) fun hle x hlo hhi => h x hlo.le (hhi.trans_le hle)

/-! ## Every request -/

/-- What request `r` means: run in any state it writes `bytes`, gives `answer` and changes nothing else but the caller's cursor. -/
structure RequestMeaning (r : Request) (bytes : Build → List Byte) (answer : State → Response) : Prop where
  /-- It completes, and what it wrote and answered is all that changed besides the cursor. -/
  run : ∀ s, ∃ c, runRequest r s = .next { s.perform r.off (bytes s.build) (answer s) with cursor := c }
  /-- It writes inside its region (R34). -/
  bytes_length_le : ∀ b, (bytes b).length ≤ r.len - r.off
  /-- Its answer is one the block can give. -/
  legal : ∀ s, LegalResponse s.build (answer s)
  /-- Its answer rests on the build and, where it writes nothing, on the bytes of its region (R27, R35). -/
  answer_congr : ∀ s s', s.build = s'.build →
    (bytes s.build = [] → ∀ x, r.off ≤ x → x < r.len → s.buf.read x = s'.buf.read x) → answer s = answer s'

theorem State.threadCursor_eq (t : State) (i : Instr) (r : Request) :
    t.threadCursor i r = { t with cursor := (t.threadCursor i r).cursor } := by
  unfold State.threadCursor
  split
  · split <;> rfl
  · rfl

/-- A decoded operation that performs an update makes its request perform it, but for the cursor (R23). -/
theorem runRequest_of_exec_perform {r : Request} {i : Instr} (hd : decode r = .ok i) {s : State} {off : Nat} {bs : List Byte}
    {p : Response} (hexec : exec i s = .next (s.perform off bs p)) :
    ∃ c, runRequest r s = .next { s.perform off bs p with cursor := c } := by
  rw [runRequest_of_ok hd, hexec]
  exact ⟨_, congrArg _ (State.threadCursor_eq _ i r)⟩

theorem requestMeaning_illegal {r : Request} {e : DecodeError} (hd : decode r = .error e) :
    RequestMeaning r (fun _ => []) (fun _ => Failure.illegalOp.response) where
  run s := ⟨s.cursor, runRequest_of_error hd s⟩
  bytes_length_le _ := Nat.zero_le _
  legal _ := legalResponse_failure fun _ h => nomatch h
  answer_congr _ _ _ _ := rfl

theorem requestMeaning_encode {r : Request} {i : Instr} {j : EncodeJob} (hd : decode r = .ok i) (hj : encodeJob i = some j) :
    RequestMeaning r (fun b => plannedBytes b j) (fun s => encodeResponse s.build j) where
  run s := by
    obtain ⟨-, -, hoff, -⟩ := encodeJob_fields_of_decode hd hj
    refine runRequest_of_exec_perform hd ?_
    rw [exec_of_encodeJob i j s hj, runEncode_eq_perform, hoff]
  bytes_length_le b := by
    obtain ⟨-, -, hoff, hlen⟩ := encodeJob_fields_of_decode hd hj
    rw [← hoff, ← hlen]
    exact plannedBytes_length_le_region hj b
  legal s := legalResponse_encode (encodeJob_value_lt_two_pow_128 hj) s.build
  answer_congr _ _ hbuild _ := by rw [hbuild]

theorem requestMeaning_decode {r : Request} {i : Instr} (hd : decode r = .ok i) {back : BitVec i.width → BitVec i.width}
    (hexec : ∀ s, exec i s = runDecode i.width back r.off r.len s) :
    RequestMeaning r (fun _ => []) (fun s => (decodeUnsigned i.width r.off r.len s).response back) where
  run s := runRequest_of_exec_perform hd (by rw [hexec, runDecode_eq_perform])
  bytes_length_le _ := Nat.zero_le _
  legal s := by
    have h8 := eight_le_of_mem_widths (instr_width_mem i)
    exact legalResponse_decode (by omega) back r.off r.len s
  answer_congr s s' hbuild hregion := by rw [decodeUnsigned_congr_region i.width hbuild (hregion rfl)]

theorem requestMeaning_map {r : Request} {i : Instr} (hd : decode r = .ok i) {f : BitVec i.width → BitVec i.width}
    (hexec : ∀ s, exec i s = runMap i.width f r.a s) :
    RequestMeaning r (fun _ => []) (fun _ => okResponse false (result (f (operand i.width r.a))) 0) where
  run s := runRequest_of_exec_perform hd (by rw [hexec, runMap_eq_perform])
  bytes_length_le _ := Nat.zero_le _
  legal _ := legalResponse_ok _ (Nat.zero_le _) fun h => nomatch h
  answer_congr _ _ _ _ := rfl

/-- Every request has a meaning: an illegal code raises its failure, and an operation is an encode, a decode or a mapping. -/
theorem exists_requestMeaning (r : Request) : ∃ bytes answer, RequestMeaning r bytes answer := by
  cases hd : decode r with
  | error e => exact ⟨_, _, requestMeaning_illegal hd⟩
  | ok i =>
    obtain ⟨-, j, hj, -⟩ | ⟨-, -, back, hexec⟩ | ⟨-, -, f, hexec⟩ := decode_is_shared r i hd
    · exact ⟨_, _, requestMeaning_encode hd hj⟩
    · exact ⟨_, _, requestMeaning_decode hd hexec⟩
    · exact ⟨_, _, requestMeaning_map hd hexec⟩

/-- A request that has run left the block IDLE with one more response, which is legal and on the port. -/
theorem runRequest_next {r : Request} {s t : State} (h : runRequest r s = .next t) :
    ∃ p, t.trans = .idle ∧ t.rsp = some p ∧ t.responses = s.responses ++ [p] ∧ LegalResponse s.build p ∧ t.build = s.build ∧
      t.inputs = s.inputs ∧ (s.buf.wf = true → t.buf.wf = true) := by
  obtain ⟨bytes, answer, hr⟩ := exists_requestMeaning r
  obtain ⟨c, hrun⟩ := hr.run s
  obtain rfl := Host.Outcome.next.inj (hrun.symm.trans h)
  exact ⟨answer s, rfl, rfl, rfl, hr.legal s, rfl, rfl, Memory.wf_writeBytes _ _ _⟩

/-! ## Every step -/

/-- An event that goes through: a byte is written, nothing changes, or the request is abandoned. -/
theorem intrude_next_cases {r : Request} {e : Intrusion} {s t : State} (h : intrude r e s = .next t) :
    (∃ addr b, t = { s with buf := s.buf.write addr b }) ∨ t = s ∨ t = s.abandon r := by
  cases e with
  | write addr b =>
    simp only [intrude] at h
    split at h
    · cases h
    · exact .inl ⟨_, _, (Host.Outcome.next.inj h).symm⟩
  | read addr =>
    simp only [intrude] at h
    split at h
    · cases h
    · exact .inr (.inl (Host.Outcome.next.inj h).symm)
  | reset => exact .inr (.inr (Host.Outcome.next.inj h).symm)

/-- A step from `s` to `t` that gives no response: the port is kept or emptied, the buffer stays in canonical form. -/
def Quiet (s t : State) : Prop :=
  t.build = s.build ∧ t.responses = s.responses ∧ (t.rsp = s.rsp ∨ t.rsp = none) ∧ (s.buf.wf = true → t.buf.wf = true)

/-- A move of the host that goes through gives no response, whichever it is. -/
theorem hostMove_quiet {m : HostMove} {s t : State} (h : hostMove m s = .next t) : Quiet s t := by
  cases m with
  | request | requestAtCursor | readByte | setCursor => cases h; exact ⟨rfl, rfl, .inl rfl, id⟩
  | reset => cases h; exact ⟨rfl, rfl, .inr rfl, id⟩
  | writeByte addr b => cases h; exact ⟨rfl, rfl, .inl rfl, Memory.wf_write _ _ _⟩
  | readResponse =>
    simp only [hostMove] at h
    split at h
    · nomatch h
    · split at h <;> cases h
      exact ⟨rfl, rfl, .inl rfl, id⟩
  | skipFailed =>
    simp only [hostMove] at h
    split at h
    · nomatch h
    · split at h <;> cases h <;> exact ⟨rfl, rfl, .inl rfl, id⟩

theorem abandon_quiet (s : State) (r : Request) : Quiet s (s.abandon r) := by
  obtain ⟨-, hrsp, hresponses, hbuild, -, -, -⟩ := abandon_fields s r
  refine ⟨hbuild, hresponses, .inr hrsp, fun hwf => ?_⟩
  obtain hbuf | ⟨i, j, -, -, hbuf⟩ := abandon_buf s r
  · rwa [hbuf]
  · rw [hbuf]
    exact Memory.wf_writeSome _ _ _ _ _ hwf

theorem intrude_quiet {r : Request} {e : Intrusion} {s t : State} (h : intrude r e s = .next t) : Quiet s t := by
  obtain ⟨addr, b, rfl⟩ | rfl | rfl := intrude_next_cases h
  · exact ⟨rfl, rfl, .inl rfl, Memory.wf_write _ _ _⟩
  · exact ⟨rfl, rfl, .inl rfl, id⟩
  · exact abandon_quiet s r

theorem step_of_idle_nil {s : State} (h : s.trans = .idle) (hi : s.inputs = []) : step s = .next s := by
  rw [step_of_idle h, hi]

theorem step_of_busy_cons {s : State} {r : Request} {e : Intrusion} {es : List Intrusion} (h : s.trans = .busy r)
    (hi : s.intrusions = e :: es) : step s = intrude r e { s with intrusions := es } := by
  rw [step_of_busy h, hi]

/-- A step gives no response, or it runs the request on the port. -/
theorem step_next_cases {s t : State} (h : step s = .next t) :
    Quiet s t ∨ ∃ r, s.trans = .busy r ∧ s.intrusions = [] ∧ runRequest r s = .next t := by
  cases htrans : s.trans with
  | idle =>
    left
    cases hinputs : s.inputs with
    | nil =>
      obtain rfl := Host.Outcome.next.inj ((step_of_idle_nil htrans hinputs).symm.trans h)
      exact ⟨rfl, rfl, .inl rfl, id⟩
    | cons m ms => exact hostMove_quiet (s := { s with inputs := ms }) (step_of_idle_cons htrans hinputs ▸ h)
  | busy r =>
    cases hintrusions : s.intrusions with
    | nil => exact .inr ⟨r, rfl, rfl, step_of_busy_nil htrans hintrusions ▸ h⟩
    | cons e es => exact .inl (intrude_quiet (s := { s with intrusions := es }) (step_of_busy_cons htrans hintrusions ▸ h))

theorem inv_of_quiet {s t : State} (hinv : Inv s) (h : Quiet s t) : Inv t := by
  obtain ⟨hwf, hlegal, hport⟩ := hinv
  obtain ⟨hbuild, hresponses, hrsp, hwf'⟩ := h
  rw [Safety.Inv, hbuild, hresponses]
  refine ⟨hwf' hwf, hlegal, ?_⟩
  obtain hkept | hnone := hrsp
  · exact hkept ▸ hport
  · exact .inl hnone

theorem inv_of_runRequest {r : Request} {s t : State} (hinv : Inv s) (h : runRequest r s = .next t) : Inv t := by
  obtain ⟨hwf, hlegal, -⟩ := hinv
  obtain ⟨p, -, hrsp, hresponses, hp, hbuild, -, hwf'⟩ := runRequest_next h
  rw [Safety.Inv, hbuild, hresponses, hrsp, List.getLast?_concat]
  refine ⟨hwf' hwf, fun q hq => ?_, .inr rfl⟩
  obtain hq | rfl := List.mem_append.1 hq |>.imp_right List.mem_singleton.1
  · exact hlegal q hq
  · exact hp

/-- Settles O46: a step that gives no response keeps all three parts, and a request adds one legal response, which is then on the port. -/
theorem stepKeepsTheInvariant : Obligations.StepKeepsTheInvariant := by
  unfold Obligations.StepKeepsTheInvariant
  intro s t hinv hstep
  obtain hquiet | ⟨r, -, -, hrun⟩ := step_next_cases hstep
  · exact inv_of_quiet hinv hquiet
  · exact inv_of_runRequest hinv hrun

/-- Settles O45: nothing is listed, nothing was answered, and the port is empty. -/
theorem resetMeetsTheInvariant : Obligations.ResetMeetsTheInvariant :=
  ⟨rfl, fun _ hp => absurd hp List.not_mem_nil, .inl rsp_reset⟩

/-- Settles O55: no quiet step and no request sets a build parameter. -/
theorem buildParametersNeverChange : Obligations.BuildParametersNeverChange := by
  unfold Obligations.BuildParametersNeverChange
  intro s t hstep
  obtain ⟨hbuild, -⟩ | ⟨r, -, -, hrun⟩ := step_next_cases hstep
  · exact hbuild
  · obtain ⟨p, -, -, -, -, hbuild, -⟩ := runRequest_next hrun
    exact hbuild

end Sys2Proof.Machine
end

section
/-! The encodes and decodes that map their value (44_composite.md), what an operation of width W reads and answers (R22), and what a decode
reads and never hides (R80, R83, R138). -/

namespace Sys2Proof.Machine

open Sys2Proof.Safety

/-! ## The composite encodes with room (R116, R118) -/

/-- Settles O17: the job of a signed encode is the zigzag number at the request's region. -/
theorem signedEncodeWritesZigzag : Obligations.SignedEncodeWritesZigzag := by
  unfold Obligations.SignedEncodeWritesZigzag
  intro w mk hmem a off len s v hv hroom
  rw [← signedJob_v (pos_of_mem_signedEncodes hmem) off len hv] at hroom ⊢
  exact exec_encode_of_room (encodeJob_of_mem_signedEncodes hmem a off len) hroom

/-- Settles O18: the job of a float encode is the number of the reversed pattern at the request's region. -/
theorem floatEncodeWritesReversed : Obligations.FloatEncodeWritesReversed := by
  unfold Obligations.FloatEncodeWritesReversed
  intro w mk hmem a off len s u hu hroom
  rw [← floatJob_v off len hu] at hroom ⊢
  exact exec_encode_of_room (encodeJob_of_mem_floatEncodes hmem a off len) hroom

/-! ## The composite decodes where the number fits (R117, R119) -/

/-- Settles O23: the number fits, so ZZ_DEC maps it back whole. -/
theorem signedDecodeAnswersTheSignedValue : Obligations.SignedDecodeAnswersTheSignedValue := by
  unfold Obligations.SignedDecodeAnswersTheSignedValue
  intro w mk hmem off len s hc hv
  obtain ⟨t, hdecode, hanswer, hbuf⟩ := runDecode_of_fits zzDec hc hv
  refine ⟨t, _, (exec_of_mem_signedDecodes hmem off len s).trans hdecode, ?_, hanswer, hbuf⟩
  rw [zzDec_toInt_eq_unzigzagNumber (pos_of_mem_signedDecodes hmem), BitVec.toNat_ofNat, Nat.mod_eq_of_lt hv]

/-- Settles O24: REV maps the number back. -/
theorem floatDecodeAnswersThePattern : Obligations.FloatDecodeAnswersThePattern := by
  unfold Obligations.FloatDecodeAnswersThePattern
  intro w mk hmem off len s hc hv
  obtain ⟨t, hdecode, hanswer, hbuf⟩ := runDecode_of_fits bitRev hc hv
  exact ⟨t, _, (exec_of_mem_floatDecodes hmem off len s).trans hdecode, reversed_bitRev _, hanswer, hbuf⟩

/-! ## An incomplete encoding (R138) -/

theorem runDecode_of_not_complete {w : Nat} (back : BitVec w → BitVec w) {off len : Nat} {s : State} (h : ¬ Complete s off len) :
    ∃ t, runDecode w back off len s = .next t ∧ Answered s t ⟨2, false, 0, 0⟩ ∧ SameBuffer s t := by
  rw [runDecode_eq_perform, decodeUnsigned_of_not_complete w off len s h]
  exact ⟨_, rfl, answered_raise s .short, sameBuffer_raise s .short⟩

/-- Settles O25: each decode is the shared one, which finds byte 0 or the end of the encoding missing. -/
theorem shortBufferIsAnswered : Obligations.ShortBufferIsAnswered := by
  unfold Obligations.ShortBufferIsAnswered
  intro w mk hmem off len s h
  obtain ⟨back, hexec⟩ := exists_runDecode_of_mem_decodes hmem
  rw [hexec]
  exact runDecode_of_not_complete back h

/-! ## What a decode reads and what it never hides (R80, R83) -/

/-- Settles O29: the response is that of DECODE_U, which rests on these bytes. -/
theorem decodeReadsOnlyItsEncoding : Obligations.DecodeReadsOnlyItsEncoding := by
  unfold Obligations.DecodeReadsOnlyItsEncoding
  intro w mk hmem off len s s' hbuild h0 hrest
  obtain ⟨back, hexec⟩ := exists_runDecode_of_mem_decodes hmem
  rw [hexec, hexec, runDecode_eq_perform, runDecode_eq_perform]
  refine ⟨_, _, _, rfl, rfl, rfl, ?_⟩
  rw [decodeUnsigned_congr w hbuild h0 hrest]
  rfl

/-- Settles O30: an OK without the flag means that the number fits W bits; then it fits 128 bits, and both answer it. -/
theorem noSilentNarrowing : Obligations.NoSilentNarrowing := by
  unfold Obligations.NoSilentNarrowing
  intro w mk hmem off len s
  have hw := width_le_of_mem_unsignedDecodes hmem
  have hwide : (128, Instr.decodeU128) ∈ unsignedDecodes := by simp [unsignedDecodes]
  rw [exec_of_mem_unsignedDecodes hmem, exec_of_mem_unsignedDecodes hwide]
  obtain ⟨hc, hrun⟩ | ⟨hc, hv, hrun⟩ | ⟨-, -, -, hrun⟩ | ⟨-, -, -, hrun⟩ := runDecode_cases w id off len s
  · exact ⟨_, _, _, _, hrun, rfl, runDecode_eq_perform 128 id off len s, rfl, fun hok => absurd hok (by decide)⟩
  · rw [bufferValue_eq_valueAt] at hv
    have h128 : valueAt s off < 2 ^ 128 := hv.trans_le (Nat.pow_le_pow_right (by decide) hw)
    obtain ⟨t, hnarrow, ⟨-, hrsp, -⟩, -⟩ := runDecode_of_fits id hc hv
    obtain ⟨u, hwide, ⟨-, hrsp', -⟩, -⟩ := runDecode_of_fits id hc h128
    refine ⟨t, _, u, _, hnarrow, hrsp, hwide, hrsp', fun _ _ => ?_⟩
    rw [id, id, result_ofNat hw hv, result_ofNat le_rfl h128]
  · exact ⟨_, _, _, _, hrun, rfl, runDecode_eq_perform 128 id off len s, rfl, fun hok => absurd hok (Failure.response_status_ne_ok _)⟩
  · exact ⟨_, _, _, _, hrun, rfl, runDecode_eq_perform 128 id off len s, rfl, fun _ hflag => nomatch hflag⟩

/-! ## Only the operand's width counts (R22) -/

theorem operand_congr {w : Nat} {a a' : Word} (h : a.toNat % 2 ^ w = a'.toNat % 2 ^ w) : operand w a = operand w a' :=
  BitVec.eq_of_toNat_eq (by rw [operand_toNat, operand_toNat, h])

/-- Encodes with one job do the same. -/
theorem exec_eq_of_encodeJob_eq {i i' : Instr} {j : EncodeJob} (h : encodeJob i = some j) (h' : encodeJob i' = some j) (s : State) :
    exec i s = exec i' s := by
  rw [exec_of_encodeJob i j s h, exec_of_encodeJob i' j s h']

theorem exec_encode_congr {w : Nat} {mk : Word → Nat → Nat → Instr} (hmem : (w, mk) ∈ encodes) {a a' : Word} (off len : Nat) (s : State)
    (h : operand w a = operand w a') : exec (mk a off len) s = exec (mk a' off len) s := by
  simp only [encodes, List.mem_append, or_assoc] at hmem
  obtain hu | hs | hf := hmem
  · refine exec_eq_of_encodeJob_eq (encodeJob_of_mem_unsignedEncodes hu a off len) ?_ s
    rw [encodeJob_of_mem_unsignedEncodes hu, unsignedJob, unsignedJob, h]
  · refine exec_eq_of_encodeJob_eq (encodeJob_of_mem_signedEncodes hs a off len) ?_ s
    rw [encodeJob_of_mem_signedEncodes hs, signedJob, signedJob, h]
  · refine exec_eq_of_encodeJob_eq (encodeJob_of_mem_floatEncodes hf a off len) ?_ s
    rw [encodeJob_of_mem_floatEncodes hf, floatJob, floatJob, h]

/-- Each of the fourteen raw mappings is the shared one with a mapping of its own. -/
theorem exists_runMap_of_mem_maps {w : Nat} {mk : Word → Instr} (h : (w, mk) ∈ zigzagEncodes ++ zigzagDecodes ++ bitReversals) :
    ∃ f : BitVec w → BitVec w, ∀ a s, exec (mk a) s = runMap w f a s := by
  simp only [List.mem_append, or_assoc] at h
  obtain he | hd | hr := h
  · exact ⟨zzEnc, exec_of_mem_zigzagEncodes he⟩
  · exact ⟨zzDec, exec_of_mem_zigzagDecodes hd⟩
  · exact ⟨bitRev, exec_of_mem_bitReversals hr⟩

/-- A result of width W lies below 2^W. -/
theorem result_toNat_lt {w : Nat} (y : BitVec w) : (result y).toNat < 2 ^ w := by
  rw [result, BitVec.toNat_setWidth]
  exact (Nat.mod_le _ _).trans_lt y.isLt

theorem DecodeResult.response_r_lt {w : Nat} (back : BitVec w → BitVec w) (d : DecodeResult) : (d.response back).r.toNat < 2 ^ w := by
  cases d with
  | short | tooWide => exact Nat.two_pow_pos w
  | value trunc v n => exact result_toNat_lt _

/-- Settles O21: the operand is all an operation reads of `a`, and every result is a W-bit pattern zero-extended. -/
theorem onlyTheOperandsWidthCounts : Obligations.OnlyTheOperandsWidthCounts := by
  unfold Obligations.OnlyTheOperandsWidthCounts
  refine ⟨fun w mk hmem a a' off len s h => exec_encode_congr hmem off len s (operand_congr h), fun w mk hmem a a' s h => ?_,
    fun w mk hmem off len s => ?_, fun w mk hmem a s => ?_⟩
  · obtain ⟨f, hexec⟩ := exists_runMap_of_mem_maps hmem
    rw [hexec, hexec, runMap_eq, runMap_eq, operand_congr h]
  · obtain ⟨back, hexec⟩ := exists_runDecode_of_mem_decodes hmem
    rw [hexec, runDecode_eq_perform]
    exact ⟨_, _, rfl, rfl, DecodeResult.response_r_lt back _⟩
  · obtain ⟨f, hexec⟩ := exists_runMap_of_mem_maps hmem
    rw [hexec, runMap_eq]
    exact ⟨_, _, rfl, rfl, result_toNat_lt _⟩

/-! ## The statuses of each family (R136) -/

theorem encodeResponse_status (b : Build) (j : EncodeJob) : (encodeResponse b j).status = 0 ∨ (encodeResponse b j).status = 1 := by
  unfold encodeResponse
  split
  · exact .inl rfl
  · exact .inr rfl

/-- A decode is answered OK or ERR_SHORT, or ERR_WIDTH, which needs a number too wide for a target narrower than 128 bits and REJECT. -/
theorem decode_status (w : Nat) (back : BitVec w → BitVec w) (off len : Nat) (s : State) :
    ((decodeUnsigned w off len s).response back).status = 0 ∨ ((decodeUnsigned w off len s).response back).status = 2 ∨
      (((decodeUnsigned w off len s).response back).status = 3 ∧ w < 128 ∧ s.build.widthPolicy = .reject) := by
  by_cases hc : Complete s off len
  · rw [decodeUnsigned_of_complete w off len s hc]
    unfold widthCheck
    split
    next => exact .inl rfl
    next hwide =>
      cases hp : s.build.widthPolicy with
      | reject =>
        have hlt := bufferValue_lt_two_pow_128 s off
        exact .inr (.inr ⟨rfl, (Nat.pow_lt_pow_iff_right (a := 2) (by decide)).1 (by omega), rfl⟩)
      | truncate => exact .inl rfl
  · rw [decodeUnsigned_of_not_complete w off len s hc]
    exact .inr (.inl rfl)

/-- Every operation answers, and never ERR_ILLEGAL_OP. -/
theorem exec_answered (i : Instr) (s : State) : ∃ t p, exec i s = .next t ∧ Answered s t p ∧ p.status ≠ 4 := by
  obtain ⟨-, j, -, hexec⟩ | ⟨-, w, back, off, len, hexec⟩ | ⟨-, w, f, a, hexec⟩ := exec_is_shared i s
  · rw [hexec, runEncode_eq_perform]
    refine ⟨_, _, rfl, answered_perform _ _ _ _, ?_⟩
    obtain h | h := encodeResponse_status s.build j <;> rw [h] <;> decide
  · rw [hexec, runDecode_eq_perform]
    refine ⟨_, _, rfl, answered_perform _ _ _ _, ?_⟩
    obtain h | h | ⟨h, -⟩ := decode_status w back off len s <;> rw [h] <;> decide
  · rw [hexec, runMap_eq_perform w f a 0]
    exact ⟨_, _, rfl, answered_perform _ _ _ _, by rw [okResponse_status]; decide⟩

/-- ERR_ILLEGAL_OP answers the codes outside the table and no others (R141). -/
theorem runRequest_status_illegal_iff (r : Request) (s : State) :
    ∃ t p, runRequest r s = .next t ∧ t.rsp = some p ∧ (p.status = 4 ↔ r.op.toNat ∉ legalCodes) := by
  rw [← exists_decode_error_iff]
  cases hd : decode r with
  | error e => exact ⟨_, _, runRequest_of_error hd s, rfl, iff_of_true rfl ⟨e, rfl⟩⟩
  | ok i =>
    obtain ⟨t, p, hexec, ⟨-, hrsp, -⟩, hstatus⟩ := exec_answered i s
    rw [runRequest_of_ok hd, hexec]
    exact ⟨_, p, rfl, (t.threadCursor_rsp i r).trans hrsp, iff_of_false hstatus fun ⟨_, h⟩ => nomatch h⟩

/-- Settles O38: the response of each shared operation has one of its statuses, and ERR_ILLEGAL_OP is for codes that do not decode. -/
theorem statusesByFamily : Obligations.StatusesByFamily := by
  unfold Obligations.StatusesByFamily
  refine ⟨fun w mk hmem a off len s => ?_, fun w mk hmem off len s => ?_, fun w mk hmem a s => ?_, runRequest_status_illegal_iff⟩
  · obtain ⟨v, hj⟩ := exists_encodeJob_of_mem_encodes hmem a off len
    rw [exec_of_encodeJob _ _ s hj, runEncode_eq_perform]
    exact ⟨_, _, rfl, rfl, encodeResponse_status s.build _⟩
  · obtain ⟨back, hexec⟩ := exists_runDecode_of_mem_decodes hmem
    rw [hexec, runDecode_eq_perform]
    exact ⟨_, _, rfl, rfl, decode_status w back off len s⟩
  · obtain ⟨f, hexec⟩ := exists_runMap_of_mem_maps hmem
    rw [hexec, runMap_eq]
    exact ⟨_, _, rfl, rfl, rfl⟩

end Sys2Proof.Machine
end

section
/-! Requests and their regions (10_state.md section 6, 20_memory.md): what a request answers and leaves there (R27), that it writes nowhere else
(R34), that repeating it changes nothing (R39), and that requests on disjoint regions commute (R43). -/

namespace Sys2Proof.Machine

open Sys2Proof.Safety

/-! ## Runs of writes -/

/-- The byte at an index after a run of writes rests on the run and the old byte there. -/
theorem Memory.read_writeBytes_congr {m m' : Memory} {x : Nat} (h : m.read x = m'.read x) (bs : List Byte) (a : Nat) :
    (m.writeBytes a bs).read x = (m'.writeBytes a bs).read x := by
  rw [Memory.read_writeBytes, Memory.read_writeBytes, h]

/-- Writing a run again leaves every byte as the first time. -/
theorem Memory.read_writeBytes_twice (m : Memory) (a : Nat) (bs : List Byte) (x : Nat) :
    ((m.writeBytes a bs).writeBytes a bs).read x = (m.writeBytes a bs).read x := by
  rw [Memory.read_writeBytes]
  split
  · by_cases hx : x - a < bs.length
    · rw [Memory.read_writeBytes, if_pos ‹_›, List.getElem?_eq_getElem hx]; rfl
    · rw [List.getElem?_eq_none (by omega)]; rfl
  · rfl

/-- Two runs of writes of which no index is in both commute. -/
theorem Memory.read_writeBytes_comm (m : Memory) {a a' : Nat} {bs bs' : List Byte} {x : Nat}
    (h : (x < a ∨ a + bs.length ≤ x) ∨ x < a' ∨ a' + bs'.length ≤ x) :
    ((m.writeBytes a bs).writeBytes a' bs').read x = ((m.writeBytes a' bs').writeBytes a bs).read x := by
  obtain hout | hout := h
  · rw [Memory.read_writeBytes_outside bs _ a x hout]
    exact Memory.read_writeBytes_congr (Memory.read_writeBytes_outside bs m a x hout) bs' a'
  · rw [Memory.read_writeBytes_outside bs' _ a' x hout]
    exact (Memory.read_writeBytes_congr (Memory.read_writeBytes_outside bs' m a' x hout) bs a).symm

/-! ## What a request leaves (R27, R34) -/

/-- A request writes inside its region only. -/
theorem RequestMeaning.read_outside {r : Request} {bytes : Build → List Byte} {answer : State → Response}
    (hr : RequestMeaning r bytes answer) (b : Build) (m : Memory) {x : Nat} (hx : x < r.off ∨ r.len ≤ x) :
    (m.writeBytes r.off (bytes b)).read x = m.read x := by
  have hlen := hr.bytes_length_le b
  exact Memory.read_writeBytes_outside _ _ _ _ (by omega)

/-- Settles O41: both states are answered alike and get the same bytes written. -/
theorem noHiddenState : Obligations.NoHiddenState := by
  unfold Obligations.NoHiddenState
  intro r s s' hbuild hregion
  obtain ⟨bytes, answer, hr⟩ := exists_requestMeaning r
  obtain ⟨c, hrun⟩ := hr.run s
  obtain ⟨c', hrun'⟩ := hr.run s'
  refine ⟨_, _, answer s, hrun, hrun', rfl, congrArg some (hr.answer_congr s s' hbuild fun _ => hregion).symm, fun x hlo hhi => ?_⟩
  show (s.buf.writeBytes r.off (bytes s.build)).read x = (s'.buf.writeBytes r.off (bytes s'.build)).read x
  rw [hbuild]
  exact Memory.read_writeBytes_congr (hregion x hlo hhi) _ _

/-- Settles O42: what a request writes fits between `off` and `len`. -/
theorem bytesOutsideTheRegionStay : Obligations.BytesOutsideTheRegionStay := by
  unfold Obligations.BytesOutsideTheRegionStay
  intro r s
  obtain ⟨bytes, answer, hr⟩ := exists_requestMeaning r
  obtain ⟨c, hrun⟩ := hr.run s
  exact ⟨_, hrun, fun x => hr.read_outside s.build s.buf⟩

/-! ## Repeating a request (R39) -/

/-- Settles O43: the same bytes are written twice; and either the request wrote none, so it reads what it read before, or it reads none. -/
theorem repeatingChangesNothing : Obligations.RepeatingChangesNothing := by
  unfold Obligations.RepeatingChangesNothing
  intro r s
  obtain ⟨bytes, answer, hr⟩ := exists_requestMeaning r
  obtain ⟨c, hrun⟩ := hr.run s
  obtain ⟨c', hrun'⟩ := hr.run { s.perform r.off (bytes s.build) (answer s) with cursor := c }
  refine ⟨_, _, hrun, hrun', congrArg some ?_, fun x => Memory.read_writeBytes_twice s.buf r.off (bytes s.build) x⟩
  refine (hr.answer_congr s { s.perform r.off (bytes s.build) (answer s) with cursor := c } rfl fun hnone x _ _ => ?_).symm
  show s.buf.read x = (s.buf.writeBytes r.off (bytes s.build)).read x
  rw [hnone, Memory.writeBytes]

/-! ## Disjoint regions (R43) -/

/-- A request before which another one wrote outside its region answers as it would have. -/
theorem RequestMeaning.answer_after_disjoint {r r' : Request} {bytes bytes' : Build → List Byte} {answer answer' : State → Response}
    (hr : RequestMeaning r bytes answer) (hr' : RequestMeaning r' bytes' answer') (h : r.len ≤ r'.off ∨ r'.len ≤ r.off) (s : State)
    (c : Nat) : answer' { s.perform r.off (bytes s.build) (answer s) with cursor := c } = answer' s := by
  refine hr'.answer_congr _ _ rfl fun _ x hlo hhi => ?_
  exact hr.read_outside s.build s.buf (by omega)

/-- Settles O44: neither request writes where the other reads or writes. -/
theorem disjointRequestsCommute : Obligations.DisjointRequestsCommute := by
  unfold Obligations.DisjointRequestsCommute
  intro r r' s h
  obtain ⟨bytes, answer, hr⟩ := exists_requestMeaning r
  obtain ⟨bytes', answer', hr'⟩ := exists_requestMeaning r'
  obtain ⟨c, hrun⟩ := hr.run s
  obtain ⟨c', hrun'⟩ := hr'.run s
  obtain ⟨d, hsecond⟩ := hr'.run { s.perform r.off (bytes s.build) (answer s) with cursor := c }
  obtain ⟨d', hsecond'⟩ := hr.run { s.perform r'.off (bytes' s.build) (answer' s) with cursor := c' }
  refine ⟨_, _, _, _, hrun, hsecond, hrun', hsecond', fun x => ?_,
    congrArg some (hr'.answer_after_disjoint hr h.symm s c').symm, congrArg some (hr.answer_after_disjoint hr' h s c)⟩
  have hlen := hr.bytes_length_le s.build
  have hlen' := hr'.bytes_length_le s.build
  exact (Memory.read_writeBytes_comm s.buf (bs := bytes s.build) (bs' := bytes' s.build) (by omega)).symm

end Sys2Proof.Machine
end

section
/-! The transaction (10_state.md sections 1, 2 and 6): one request at a time (R28), each answered once (R161) and in the order issued (R42, R162),
where the cursor goes (R23, R160), which accesses race (R43, R159), and the host's moves between requests (R149). -/

namespace Sys2Proof.Machine

open Sys2Proof.Safety

/-! ## One request at a time (R28) -/

/-- An event during a request leaves the block BUSY with it, or abandons it; either way no response is given. -/
theorem intrude_next_trans {r : Request} {e : Intrusion} {s t : State} (hbusy : s.trans = .busy r) (h : intrude r e s = .next t) :
    t.inputs = s.inputs ∧ (t.trans = .busy r ∨ t.trans = .idle) ∧ t.responses = s.responses := by
  obtain ⟨addr, b, rfl⟩ | rfl | rfl := intrude_next_cases h
  · exact ⟨rfl, .inl hbusy, rfl⟩
  · exact ⟨rfl, .inl hbusy, rfl⟩
  · obtain ⟨htrans, -, hresponses, -, -, hinputs, -⟩ := abandon_fields s r
    exact ⟨hinputs, .inr htrans, hresponses⟩

/-- Settles O51: an IDLE block accepts the request the host presents, and a BUSY one takes an event or answers. -/
theorem oneRequestAtATime : Obligations.OneRequestAtATime := by
  unfold Obligations.OneRequestAtATime
  refine ⟨fun s r d ms hidle hinputs => step_of_idle_cons hidle hinputs, fun s t r hbusy hstep => ?_⟩
  cases hintrusions : s.intrusions with
  | nil =>
    rw [step_of_busy_nil hbusy hintrusions] at hstep
    obtain ⟨p, htrans, hrsp, hresponses, -, -, hinputs, -⟩ := runRequest_next hstep
    exact ⟨hinputs, .inr htrans, fun h => (nomatch htrans.symm.trans h), fun _ => ⟨htrans, p, hrsp, hresponses⟩⟩
  | cons e es =>
    rw [step_of_busy_cons hbusy hintrusions] at hstep
    obtain ⟨hinputs, htrans, hresponses⟩ := intrude_next_trans (s := { s with intrusions := es }) hbusy hstep
    exact ⟨hinputs, htrans, fun _ => hresponses, fun h => nomatch h⟩

/-! ## Every accepted request is answered (R161) -/

/-- A benign event goes through, and only a byte of the buffer may change. -/
theorem intrude_of_benign {r : Request} {e : Intrusion} (h : Benign r e) (s : State) :
    ∃ m, intrude r e s = .next { s with buf := m } := by
  cases e with
  | write addr b => exact ⟨s.buf.write addr b, if_neg (ne_true_of_eq_false h)⟩
  | read addr => exact ⟨s.buf, if_neg (ne_true_of_eq_false h)⟩
  | reset => exact h.elim

/-- The events are taken one a step, and then the request runs. -/
theorem run_of_benign_intrusions (r : Request) (es : List Intrusion) : ∀ s : State, s.trans = .busy r → s.intrusions = es →
    (∀ e ∈ es, Benign r e) →
    ∃ t : State, Host.Core.run core (es.length + 1) s = .next t ∧ t.trans = .idle ∧
      ∃ p, t.rsp = some p ∧ t.responses = s.responses ++ [p] := by
  induction es with
  | nil =>
    intro s hbusy hintrusions _
    obtain ⟨t, hrun⟩ := exists_runRequest_next r s
    obtain ⟨p, htrans, hrsp, hresponses, -⟩ := runRequest_next hrun
    exact ⟨t, run_succ_of_next core 0 s t ((step_of_busy_nil hbusy hintrusions).trans hrun), htrans, p, hrsp, hresponses⟩
  | cons e es ih =>
    intro s hbusy hintrusions hbenign
    obtain ⟨he, hes⟩ := List.forall_mem_cons.1 hbenign
    obtain ⟨m, hintrude⟩ := intrude_of_benign he { s with intrusions := es }
    have hstep : step s = .next { s with intrusions := es, buf := m } := (step_of_busy_cons hbusy hintrusions).trans hintrude
    obtain ⟨t, hrun, hanswered⟩ := ih { s with intrusions := es, buf := m } hbusy rfl hes
    exact ⟨t, (run_succ_of_next core _ s _ hstep).trans hrun, hanswered⟩

/-- Settles O52: by induction on the events to come. -/
theorem acceptedRequestCompletes : Obligations.AcceptedRequestCompletes := by
  unfold Obligations.AcceptedRequestCompletes
  exact fun s r hbusy hbenign => run_of_benign_intrusions r s.intrusions s hbusy rfl hbenign

/-! ## Requests issued one after another (R17, R42, R162) -/

/-- A presented request is accepted in one step and answered in the next. -/
theorem run_of_request_cons {s : State} {r : Request} {rs : List Request} (hidle : s.trans = .idle)
    (hinputs : s.inputs = programMoves (r :: rs)) :
    ∃ u p, runRequest r { s with trans := .busy r, intrusions := [], inputs := programMoves rs } = .next u ∧
      (∀ n, Host.Core.run core (n + 2) s = Host.Core.run core n u) ∧ u.trans = .idle ∧ u.rsp = some p ∧
      u.responses = s.responses ++ [p] ∧ u.build = s.build ∧ u.inputs = programMoves rs := by
  obtain ⟨u, hrun⟩ := exists_runRequest_next r { s with trans := .busy r, intrusions := [], inputs := programMoves rs }
  obtain ⟨p, htrans, hrsp, hresponses, -, hbuild, hinputs', -⟩ := runRequest_next hrun
  have haccept : step s = .next { s with trans := .busy r, intrusions := [], inputs := programMoves rs } :=
    step_of_idle_cons hidle hinputs
  refine ⟨u, p, hrun, fun n => ?_, htrans, hrsp, hresponses, hbuild, hinputs'⟩
  exact (run_succ_of_next core (n + 1) s _ haccept).trans (run_succ_of_next core n _ u ((step_of_busy_nil rfl rfl).trans hrun))

/-- Settles O53: by induction on the requests, each of which takes its two steps. -/
theorem everyPresentedRequestIsAnswered : Obligations.EveryPresentedRequestIsAnswered := by
  unfold Obligations.EveryPresentedRequestIsAnswered
  intro s rs
  induction rs generalizing s with
  | nil =>
    intro hidle hinputs
    exact ⟨s, [], rfl, ⟨hidle, hinputs⟩, rfl, (List.append_nil _).symm, rfl, rfl, rfl⟩
  | cons r rs ih =>
    intro hidle hinputs
    obtain ⟨u, p, hfirst, hsteps, htrans, hrsp, hresponses, hbuild, hinputs'⟩ := run_of_request_cons hidle hinputs
    obtain ⟨t, ps, hrun, hended, hlength, hall, hbuild', horder⟩ := ih u htrans hinputs'
    refine ⟨t, p :: ps, (hsteps _).trans hrun, hended, congrArg (· + 1) hlength, ?_, hbuild'.trans hbuild,
      u, p, ps, hfirst, hrsp, rfl, horder⟩
    rw [hall, hresponses, List.append_assoc, List.singleton_append]

/-! ## The decoded operation and the cursor (R23, R160) -/

/-- The BUSY step with nothing to come runs the decoded operation, which answers, and threads the cursor. -/
theorem step_of_decoded {s : State} {r : Request} {i : Instr} (hbusy : s.trans = .busy r) (hintrusions : s.intrusions = [])
    (hd : decode r = .ok i) : ∃ t p, exec i s = .next t ∧ Answered s t p ∧ step s = .next (t.threadCursor i r) := by
  obtain ⟨t, p, hexec, hanswer, -⟩ := exec_answered i s
  refine ⟨t, p, hexec, hanswer, ?_⟩
  rw [step_of_busy_nil hbusy hintrusions, runRequest_of_ok hd, hexec]

/-- Settles O7: the step of a decoded request. -/
theorem stepRunsTheDecodedOperation : Obligations.StepRunsTheDecodedOperation := by
  unfold Obligations.StepRunsTheDecodedOperation
  intro s r i hbusy hintrusions hd
  obtain ⟨t, p, hexec, -, hstep⟩ := step_of_decoded hbusy hintrusions hd
  exact ⟨t, hexec, hstep⟩

/-- After a failure the host may skip the bytes the response reports (R160). -/
theorem hostMove_skipFailed {s : State} {p : Response} (hrsp : s.rsp = some p) (hfailed : p.status ≠ statusOk) :
    hostMove .skipFailed s = .next { s with cursor := s.cursor + p.n.toNat } := by
  simp only [hostMove, hrsp, if_neg hfailed]

/-- Settles O54: the operation leaves the cursor as it was, and then it is threaded by the response. -/
theorem cursorIsThreaded : Obligations.CursorIsThreaded := by
  unfold Obligations.CursorIsThreaded
  refine ⟨fun s r i hbusy hintrusions hd => ?_, fun s op a len d ms hidle hinputs => step_of_idle_cons hidle hinputs,
    fun s p ms hidle hinputs hrsp hfailed => ?_⟩
  · obtain ⟨t, p, -, ⟨-, hrsp, -, -, hcursor, -⟩, hstep⟩ := step_of_decoded hbusy hintrusions hd
    refine ⟨_, p, hstep, (t.threadCursor_rsp i r).trans hrsp, ?_⟩
    rw [t.threadCursor_cursor i r p hrsp, hcursor]
    rfl
  · rw [step_of_idle_cons hidle hinputs]
    exact hostMove_skipFailed hrsp hfailed

/-! ## Races (R43, R152, R159) -/

theorem inBusyRegion_eq_true {r : Request} {i : Instr} {addr : Nat} (hd : decode r = .ok i) (hform : i.form ≠ .map)
    (hlo : r.off ≤ addr) (hhi : addr < r.len) : inBusyRegion r addr = true :=
  (inBusyRegion_iff r addr).2 ⟨i, hd, hform, hlo, hhi⟩

theorem inBusyRegion_eq_false {r : Request} {addr : Nat}
    (h : (∃ e, decode r = .error e) ∨ ∃ i, decode r = .ok i ∧ (i.form = .map ∨ addr < r.off ∨ r.len ≤ addr)) :
    inBusyRegion r addr = false := by
  rw [Bool.eq_false_iff, ne_eq, inBusyRegion_iff]
  rintro ⟨i, hd, hform, hlo, hhi⟩
  obtain ⟨e, he⟩ | ⟨i', hd', houtside⟩ := h
  · exact nomatch he.symm.trans hd
  · obtain rfl : i' = i := Except.ok.inj (hd'.symm.trans hd)
    obtain hmap | hlt | hge := houtside
    · exact hform hmap
    · omega
    · omega

/-- Settles O50: an access faults in the region of the BUSY request and goes through elsewhere. -/
theorem racesFault : Obligations.RacesFault := by
  unfold Obligations.RacesFault
  intro s r addr b es hbusy
  refine ⟨fun i hd hform hlo hhi => ⟨fun hwrite => ?_, fun hread => ?_⟩, fun h => ⟨fun hwrite => ?_, fun hread => ?_⟩⟩
  · rw [step_of_busy_cons hbusy hwrite]
    exact if_pos (inBusyRegion_eq_true hd hform hlo hhi)
  · rw [step_of_busy_cons hbusy hread]
    exact if_pos (inBusyRegion_eq_true hd hform hlo hhi)
  · refine ⟨{ s with intrusions := es, buf := s.buf.write addr b }, ?_, hbusy, rfl, Memory.read_write_same _ _ _,
      fun x hx => Memory.read_write_other _ _ _ _ hx, rfl⟩
    rw [step_of_busy_cons hbusy hwrite]
    exact if_neg (ne_true_of_eq_false (inBusyRegion_eq_false h))
  · rw [step_of_busy_cons hbusy hread]
    exact if_neg (ne_true_of_eq_false (inBusyRegion_eq_false h))

/-! ## The host between requests (R149, R157) -/

/-- Settles O56: with no move to come the step changes nothing. -/
theorem idleBlockWaits : Obligations.IdleBlockWaits := by
  unfold Obligations.IdleBlockWaits
  exact fun s hidle hinputs => step_of_idle_nil hidle hinputs

/-- The host reads a status of the block's, and faults on any other (93_implementation_defined.md item 12). -/
theorem hostMove_readResponse {s : State} {p : Response} (h : s.rsp = some p) :
    hostMove .readResponse s = if p.status.toNat ≤ 4 then .next s else .fault (.badStatus p.status) := by
  simp only [hostMove, h, legalStatus, decide_eq_true_eq]

/-- Settles O57: each is the host's move, made in one step. -/
theorem hostMovesGoThrough : Obligations.HostMovesGoThrough := by
  unfold Obligations.HostMovesGoThrough
  intro s ms hidle
  refine ⟨fun addr b hinputs => ?_, fun addr hinputs => step_of_idle_cons hidle hinputs, fun c hinputs => step_of_idle_cons hidle hinputs,
    fun p hinputs hrsp hlegal => ?_, fun p hinputs hrsp hillegal => ?_⟩
  · exact ⟨{ s with inputs := ms, buf := s.buf.write addr b }, step_of_idle_cons hidle hinputs, hidle, rfl, rfl, rfl,
      Memory.read_write_same _ _ _, fun x hx => Memory.read_write_other _ _ _ _ hx⟩
  · rw [step_of_idle_cons hidle hinputs, hostMove_readResponse (s := { s with inputs := ms }) hrsp, if_pos hlegal]
  · rw [step_of_idle_cons hidle hinputs, hostMove_readResponse (s := { s with inputs := ms }) hrsp, if_neg (by omega)]

end Sys2Proof.Machine
end

section
/-! The request of an operation (R62, R64), the table of R52, and the lines of a program (R66). -/

namespace Sys2Proof.Machine

open Sys2Proof.Safety

/-! ## Encoding and decoding a request (R62, R64) -/

theorem decode_encode (i : Instr) : decode (encode i) = .ok i := by
  cases i <;> rfl

/-- Settles O4: a request that decodes to an operation has the operation's code. -/
theorem decodeInvertsEncode : Obligations.DecodeInvertsEncode := by
  unfold Obligations.DecodeInvertsEncode
  exact fun i => ⟨decode_encode i, (opcode_of_decode (decode_encode i)).symm⟩

/-- An operation carries the fields its form uses from the request it was decoded from (R64). -/
theorem encode_fields_of_decode {r : Request} {i : Instr} (h : decode r = .ok i) :
    (i.form ≠ .memDec → (encode i).a = r.a) ∧ (i.form ≠ .map → (encode i).off = r.off ∧ (encode i).len = r.len) := by
  unfold decode at h
  split at h
  case h_39 => nomatch h
  all_goals cases h; simp [encode, Instr.form]

/-- Settles O5: code by code, the fields the form uses are those of the request. -/
theorem encodeInvertsDecode : Obligations.EncodeInvertsDecode := by
  unfold Obligations.EncodeInvertsDecode
  exact fun r i h => ⟨opcode_of_decode h, encode_fields_of_decode h⟩

/-- Settles O6: each word is one row of the table, and the last has `rsv = 1`. -/
theorem tableWordsDecode : Obligations.TableWordsDecode := by
  unfold Obligations.TableWordsDecode
  and_intros <;> rfl

/-! ## The table of R52 -/

/-- Settles O8: the classification by comparisons, row by row. -/
theorem prefixByteFixesShapeAndLength : Obligations.PrefixByteFixesShapeAndLength := by
  unfold Obligations.PrefixByteFixesShapeAndLength
  intro b
  refine ⟨encTotalLen_eq b, fun h => ?_, fun hlo hhi => ?_, fun hlo hhi => ?_, fun hlo hhi => ?_, fun hlo => ?_⟩ <;> rw [classify_eq]
  · rw [if_pos h]
  · rw [if_neg (by omega), if_pos hhi]
  · rw [if_neg (by omega), if_neg (by omega), if_pos hhi]
  · rw [if_neg (by omega), if_neg (by omega), if_neg (by omega), if_pos hhi]
  · rw [if_neg (by omega), if_neg (by omega), if_neg (by omega), if_neg (by omega)]

/-! ## Decimal literals (R66) -/

theorem width_le_of_mem_widths {w : Nat} (h : w ∈ [8, 16, 32, 64, 128]) : w ≤ 128 := by
  simp only [List.mem_cons, List.not_mem_nil, or_false] at h
  omega

/-- A decimal in the signed range is its two's complement pattern, zero-extended (R15). -/
theorem pattern_signed_dec {w : Nat} (hw : 0 < w) (h128 : w ≤ 128) {z : Int} (hlo : -2 ^ (w - 1) ≤ z) (hhi : z < 2 ^ (w - 1)) :
    ∃ a, Literal.pattern .signed w (.dec z) = .ok a ∧ a.toNat < 2 ^ w ∧ (a.setWidth w).toInt = z := by
  refine ⟨result (BitVec.ofInt w z), if_pos ⟨hlo, hhi⟩, result_toNat_lt _, ?_⟩
  rw [result, BitVec.setWidth_setWidth_of_le _ h128, BitVec.setWidth_eq, BitVec.toInt_ofInt_eq_self hw hlo hhi]

/-- A decimal in the unsigned range is its own number. -/
theorem pattern_unsigned_dec {w : Nat} (h128 : w ≤ 128) {z : Int} (hlo : 0 ≤ z) (hhi : z < 2 ^ w) :
    ∃ a, Literal.pattern .unsigned w (.dec z) = .ok a ∧ (a.toNat : Int) = z := by
  have hpow : (2 : Int) ^ w ≤ 2 ^ 128 := pow_le_pow_right₀ (by decide) h128
  refine ⟨BitVec.ofInt 128 z, (if_neg (not_lt.2 hlo)).trans (if_pos hhi), ?_⟩
  rw [BitVec.toNat_ofInt]
  omega

/-- Settles O58: a decimal inside the range gives its pattern, one outside is refused by the test it fails. -/
theorem decimalLiterals : Obligations.DecimalLiterals := by
  unfold Obligations.DecimalLiterals
  refine ⟨fun w hmem z => ?_, fun w z => ⟨fun hneg => if_pos hneg, rfl⟩⟩
  have h8 := eight_le_of_mem_widths hmem
  have h128 := width_le_of_mem_widths hmem
  refine ⟨pattern_signed_dec (by omega) h128, fun hout => if_neg (by omega), pattern_unsigned_dec h128, fun hge => ?_⟩
  have hpos : (0 : Int) < 2 ^ w := by positivity
  exact (if_neg (by omega)).trans (if_neg (by omega))

/-! ## The request of a line (R66) -/

/-- A mnemonic names an operation that reads a hexadecimal operand as itself, or refuses one of more than W bits. -/
theorem templateOf_hex_operand {i : Instr} (h : i.form ≠ .memDec) (n : Nat) :
    ∃ j, templateOf i.mnemonic = some j ∧ j.form = i.form ∧ opcode j = opcode i ∧
      Line.operand j (.hex n) = if n < 2 ^ i.width then .ok (BitVec.ofNat 128 n) else .error (.literal .tooWide) := by
  obtain ⟨j, hj, hform, hwidth, hcode, hkind⟩ := templateOf_mnemonic i
  refine ⟨j, hj, hform, hcode, ?_⟩
  rw [Line.operand, hwidth]
  split_ifs with hn
  · rw [pattern_hex_of_lt (hkind h) hn]
  · rw [pattern_hex_of_le (hkind h) (not_lt.1 hn)]

theorem request_memEnc {i : Instr} (hform : i.form = .memEnc) (off len n : Nat) :
    (Line.memEnc i.mnemonic off (.hex n)).request len =
      if n < 2 ^ i.width then .ok ⟨opcode i, BitVec.ofNat 128 n, off, len⟩ else .error (.literal .tooWide) := by
  obtain ⟨j, hj, hjform, hcode, hoperand⟩ := templateOf_hex_operand (i := i) (by rw [hform]; decide) n
  simp only [Line.request, hj, if_pos (hjform.trans hform), hcode, hoperand]
  split_ifs <;> rfl

theorem request_memDec {i : Instr} (hform : i.form = .memDec) (off len : Nat) :
    (Line.memDec i.mnemonic off).request len = .ok ⟨opcode i, 0, off, len⟩ := by
  obtain ⟨j, hj, hjform, -, hcode, -⟩ := templateOf_mnemonic i
  simp only [Line.request, hj, if_pos (hjform.trans hform), hcode]

theorem request_map {i : Instr} (hform : i.form = .map) (len n : Nat) :
    (Line.map i.mnemonic (.hex n)).request len =
      if n < 2 ^ i.width then .ok ⟨opcode i, BitVec.ofNat 128 n, 0, len⟩ else .error (.literal .tooWide) := by
  obtain ⟨j, hj, hjform, hcode, hoperand⟩ := templateOf_hex_operand (i := i) (by rw [hform]; decide) n
  simp only [Line.request, hj, if_pos (hjform.trans hform), hcode, hoperand]
  split_ifs <;> rfl

/-- A raw line takes any code of 8 bits and an operand of 128 bits (log 14). -/
theorem request_req {op : Nat} (hop : op < 256) (off len n : Nat) :
    (Line.req op off (.hex n)).request len =
      if n < 2 ^ 128 then .ok ⟨BitVec.ofNat 8 op, BitVec.ofNat 128 n, off, len⟩ else .error (.literal .tooWide) := by
  have hk : OperandKind.unsigned ≠ .none := by decide
  simp only [Line.request, if_pos hop]
  split_ifs with hn
  · rw [pattern_hex_of_lt hk hn]
  · rw [pattern_hex_of_le hk (not_lt.1 hn)]

/-- Settles O59: line form by line form, on either side of the operand's check. -/
theorem assembledLineAsksForItsOperation : Obligations.AssembledLineAsksForItsOperation := by
  unfold Obligations.AssembledLineAsksForItsOperation
  exact ⟨fun i off len n hform hn => (request_memEnc hform off len n).trans (if_pos hn),
    fun i off len hform => request_memDec hform off len,
    fun i len n hform hn => (request_map hform len n).trans (if_pos hn),
    fun i off len n hform hn => (request_memEnc hform off len n).trans (if_neg (not_lt.2 hn)),
    fun i len n hform hn => (request_map hform len n).trans (if_neg (not_lt.2 hn)),
    fun op off len n hop hn => (request_req hop off len n).trans (if_pos hn),
    fun op off len n hop hn => (request_req hop off len n).trans (if_neg (not_lt.2 hn))⟩

end Sys2Proof.Machine
end
